-- ==== Sys2Proof/Word.lean ====
section
/-! DEFINITION. The byte, the unit of every port of the block (spec/00_scope.md section 5, spec/20_memory.md R61). -/

namespace Sys2Proof

/-- A byte: an 8-bit unsigned value, bit 7 the most significant (00_scope.md section 5). -/
abbrev Byte := BitVec 8

/-- `rep(x, k)`: the list of k copies of x (00_scope.md section 5). -/
def rep (x : Byte) (k : Nat) : List Byte := List.replicate k x

end Sys2Proof
end

