-- ==== Sys2Proof/Config.lean ====
section
/-! DEFINITION. The OPEN parameters of spec/00_scope.md R6: constants without a body, so that no proof can see
a value of them (spec/10_state.md R45). They are free choices from which `Sys2Proof.Machine.params`
(Machine/Params.lean) builds a parameter set that is legal by spec/41_waveform.md R170. Log 5. -/

namespace Sys2Proof

/-- The two variants of the legacy protocol (41_waveform.md R177). -/
inductive Variant where
  | gecco
  | asic
  deriving DecidableEq, Repr, Inhabited

/-- A parameter set of the WSQ (00_scope.md R6): one value for each OPEN parameter of the block. Which sets
are legal is `Sys2Proof.Machine.LegalParams` (41_waveform.md R170). `ck2` is CK2_ASIC. -/
structure Params where
  /-- SIN_v, the serial-in line of variant v -/
  sin : Variant → Byte
  /-- CK1_v, the first clock line of variant v -/
  ck1 : Variant → Byte
  /-- CK2_ASIC, the second clock line of the ASIC variant -/
  ck2 : Byte
  /-- LD_v, the load line of variant v -/
  ld : Variant → Byte
  /-- LOAD_PRE_v(C), the low bytes before the load pulse -/
  loadPre : Variant → Nat → Nat
  /-- SPI_TAG_BCAST -/
  tagBcast : BitVec 3
  /-- SPI_TAG_ROUTED -/
  tagRouted : BitVec 3
  /-- SPI_BCAST_ID -/
  bcastId : BitVec 5
  /-- SPI_BIT0 -/
  bit0 : Byte
  /-- SPI_BIT1 -/
  bit1 : Byte
  /-- SPI_LOAD -/
  load : Byte
  /-- SPI_EMPTY -/
  empty : Byte

/-- Which GPIO bit each line of the GECCO variant drives: lines 0, 1, 2 are serial-in, clock 1 and load. A
permutation, because the lines are pairwise distinct (R170, D15). -/
opaque Config.geccoLines : Equiv.Perm (Fin 8)

/-- Which GPIO bit each line of the ASIC variant drives: lines 0, 1, 2, 3 are serial-in, clock 1, load and
clock 2 (R170, D15). -/
opaque Config.asicLines : Equiv.Perm (Fin 8)

/-- The free choice behind LOAD_PRE_v(C) (D16): any natural, brought into R170's range by Machine/Params.lean. -/
opaque Config.loadPreChoice : Variant → Nat → Nat

/-- SPI_TAG_BCAST (D20). -/
opaque Config.spiTagBcast : BitVec 3

/-- How far SPI_TAG_ROUTED lies past SPI_TAG_BCAST, less one: never equal to it (R170). -/
opaque Config.spiTagGap : Fin 7

/-- SPI_BCAST_ID (D20). -/
opaque Config.spiBcastId : BitVec 5

/-- SPI_BIT0 (D21). -/
opaque Config.spiBit0 : Byte

/-- How far SPI_BIT1 lies past SPI_BIT0, less one: never equal to it (R170). -/
opaque Config.spiBitGap : Fin 255

/-- SPI_LOAD (D21). -/
opaque Config.spiLoad : Byte

/-- SPI_EMPTY (D21). -/
opaque Config.spiEmpty : Byte

/-- IDLE_BYTE, the host's idle filler value (D40): a parameter of the environment, which no operation reads. -/
opaque Config.idleByte : Byte

end Sys2Proof
end

