-- ==== Sys2Proof/Syntax.lean ====
section
/-! DEFINITION. The operations of the block with their typed operands (spec/30_encoding.md R80, R81), and the
byte formats of section 3 of that file, each a row of spec/opcode_table.json. -/

namespace Sys2Proof

/-- The protocol of a job (R81). -/
inductive Proto where
  | legacy
  | spi
  deriving DecidableEq, Repr, Inhabited

/-- One job record, the operand of GEN (R81; the register WSQ.J of 10_state.md R33). Bit i of the vector is
`vec[i]`, index 0 first (20_memory.md R66). -/
structure Job where
  proto : Proto
  variant : Variant
  clkdiv : Nat
  load : Bool
  bcast : Bool
  chip : BitVec 6
  nload : Nat
  vec : List Bool
  deriving DecidableEq, Repr, Inhabited

/-- The rows of spec/opcode_table.json: eight operations (R80), then the twelve byte formats of section 3 of
30_encoding.md, which the spec selects by name and which are data, not operations (R95; log 6). -/
inductive Instr where
  /-- CONFIG rev, fw, hdr (40_frame_decoder.md R124) -/
  | config (rev : Bool) (fw : BitVec 4) (hdr : BitVec 256)
  /-- CONFIG_CHIPS rev, fw, nchips (R125) -/
  | configChips (rev : Bool) (fw : BitVec 4) (nchips : BitVec 6)
  /-- PUSH b (R126) -/
  | push (b : Byte)
  /-- END (R127) -/
  | endBurst
  /-- GEN job (41_waveform.md R172) -/
  | gen (job : Job)
  /-- STEP (R184) -/
  | step
  /-- LEN (R186) -/
  | len
  /-- RESET (70_reset_and_hazards.md R250) -/
  | reset
  /-- FMT-HDR: the header byte `iiiiiwww` (R82) -/
  | fmtHdr (i : BitVec 5) (w : BitVec 3)
  /-- FMT-HIT5: the 5-byte hit frame (R83), its fields from byte0's top bit on, the reserved ones among them -/
  | fmtHit5 (c : BitVec 5) (p : BitVec 3) (k : BitVec 1) (r : BitVec 1) (l : BitVec 6) (t : BitVec 8)
      (e : BitVec 4) (m : BitVec 4) (n : BitVec 8)
  /-- FMT-HITN: a frame of another width, raw bytes only (R84) -/
  | fmtHitN (raw : List Byte)
  /-- LEG-DATA: the legacy data byte of bit x in variant v (R85) -/
  | legData (v : Variant) (x : Bool)
  /-- LEG-PAT-GECCO: the 3-byte pattern of bit x, each byte repeated clkdiv times (R86, R175) -/
  | legPatGecco (x : Bool) (clkdiv : Nat)
  /-- LEG-PAT-ASIC: the 5-byte pattern of bit x, each byte repeated clkdiv times (R87, R175) -/
  | legPatAsic (x : Bool) (clkdiv : Nat)
  /-- LEG-TRAILER: the load trailer of variant v for clock divider clkdiv (R88) -/
  | legTrailer (v : Variant) (clkdiv : Nat)
  /-- SPI-HDR: the header byte `tttiiiii` (R89) -/
  | spiHdr (tag : BitVec 3) (id : BitVec 5)
  /-- SPI-BIT: the byte of bit x (R90) -/
  | spiBit (x : Bool)
  /-- SPI-LOAD: the load marker (R90) -/
  | spiLoad
  /-- SPI-EMPTY: the empty/idle byte (R90) -/
  | spiEmpty
  /-- LEN-HDR: the 16-bit length header of length len, high byte first (R91) -/
  | lenHdr (len : BitVec 16)
  deriving DecidableEq, Repr

/-- The rows of spec/opcode_table.json by name alone. -/
inductive Row where
  | config | configChips | push | endBurst | gen | step | len | reset
  | fmtHdr | fmtHit5 | fmtHitN | legData | legPatGecco | legPatAsic | legTrailer
  | spiHdr | spiBit | spiLoad | spiEmpty | lenHdr
  deriving DecidableEq, Repr

/-- The row an instruction belongs to. -/
def Instr.row : Instr → Row
  | .config _ _ _ => .config
  | .configChips _ _ _ => .configChips
  | .push _ => .push
  | .endBurst => .endBurst
  | .gen _ => .gen
  | .step => .step
  | .len => .len
  | .reset => .reset
  | .fmtHdr _ _ => .fmtHdr
  | .fmtHit5 _ _ _ _ _ _ _ _ _ => .fmtHit5
  | .fmtHitN _ => .fmtHitN
  | .legData _ _ => .legData
  | .legPatGecco _ _ => .legPatGecco
  | .legPatAsic _ _ => .legPatAsic
  | .legTrailer _ _ => .legTrailer
  | .spiHdr _ _ => .spiHdr
  | .spiBit _ => .spiBit
  | .spiLoad => .spiLoad
  | .spiEmpty => .spiEmpty
  | .lenHdr _ => .lenHdr

end Sys2Proof
end

