-- ==== Sys2Proof/WellFormed.lean ====
section
/-! DEFINITION. Which instruction terms stand for something the spec describes. The operands of the eight
operations are typed so that "an operand value outside its type cannot be written down" (spec/30_encoding.md
R81); a value inside its type but outside the legal range is WELL-FORMED and is refused by the operation
(R99). What is left to check are the operands of three format rows. -/

namespace Sys2Proof

/-- FMT-HITN carries FW logical bytes with FW in 1..8 and FW ≠ 5 (R84, opcode_table.json). -/
def hitNWidthOk (raw : List Byte) : Bool :=
  decide (1 ≤ raw.length) && decide (raw.length ≤ 8) && decide (raw.length ≠ 5)

/-- A legacy pattern or trailer has a clock divider of 1 or more (R81, R171). -/
def dividerOk (clkdiv : Nat) : Bool := decide (1 ≤ clkdiv)

/-- The well-formedness check. -/
def Instr.wellFormed : Instr → Bool
  | .config _ _ _ => true
  | .configChips _ _ _ => true
  | .push _ => true
  | .endBurst => true
  | .gen _ => true
  | .step => true
  | .len => true
  | .reset => true
  | .fmtHdr _ _ => true
  | .fmtHit5 _ _ _ _ _ _ _ _ _ => true
  | .fmtHitN raw => hitNWidthOk raw
  | .legData _ _ => true
  | .legPatGecco _ c => dividerOk c
  | .legPatAsic _ c => dividerOk c
  | .legTrailer _ c => dividerOk c
  | .spiHdr _ _ => true
  | .spiBit _ => true
  | .spiLoad => true
  | .spiEmpty => true
  | .lenHdr _ => true

end Sys2Proof
end

