-- ==== Sys2Proof/Decode.lean ====
section
/-! DEFINITION. Decoding and encoding. The spec gives no operation a binary command word (spec/30_encoding.md
R80, R95): the encoding of an operation is its text line in the syntax of R102 (spec/95_test_vectors.md L3),
and R103 adds four pseudo-operations. `decodeLine` is total on any bytes and rejects by name; `encode` writes
the line of an instruction. The rows to which the table gives bits also have raw words (`decodeWord`).
Logs 7 and 8. -/

namespace Sys2Proof

/-- A piece of text: bytes, one an ASCII character. -/
abbrev Text := List Byte

/-- ASCII text from characters. -/
def chars (cs : List Char) : Text := cs.map fun c => BitVec.ofNat 8 c.toNat

/-! ### Rejections -/

/-- Why a line or a word stands for no operation. -/
inductive DecodeError where
  /-- the first token names no row and no pseudo-operation -/
  | unknownOperation (name : Text)
  /-- the operand `key=` does not stand where R102 puts it -/
  | missingField (key : Text)
  /-- a token that should be a number, a bit, a vector, a list or a name of R102 is none -/
  | badValue (value : Text)
  /-- a number outside the operand's type (R81) -/
  | outsideType (value : Text)
  /-- tokens after the last operand -/
  | trailing (rest : List Text)
  /-- the operands are readable and the term is not well-formed -/
  | illFormed
  /-- a raw word of a width to which the table gives no row -/
  | noSuchWidth (bytes : Nat)
  deriving DecidableEq, Repr

/-! ### Tokens (R102: one operation a line, a semicolon starts a comment) -/

/-- Space, tab and carriage return separate tokens. -/
def isBlank (c : Byte) : Bool := c == 0x20#8 || c == 0x09#8 || c == 0x0D#8

/-- The semicolon that starts a comment. -/
def isSemicolon (c : Byte) : Bool := c == 0x3B#8

/-- The end of a line. -/
def isNewline (c : Byte) : Bool := c == 0x0A#8

/-- The comma of a list. -/
def isComma (c : Byte) : Bool := c == 0x2C#8

/-- The pieces of a text between separators; one piece more than there are separators. -/
def splitAtSep (sep : Byte → Bool) : Text → List Text
  | [] => [[]]
  | c :: cs =>
    if sep c then [] :: splitAtSep sep cs
    else
      match splitAtSep sep cs with
      | [] => [[c]]
      | t :: ts => (c :: t) :: ts

/-- The tokens of a line, its comment cut off. -/
def tokens (line : Text) : List Text :=
  (splitAtSep isBlank (line.takeWhile fun c => !isSemicolon c)).filter fun t => !t.isEmpty

/-- Pieces joined by one separator. -/
def joinWith (sep : Byte) : List Text → Text
  | [] => []
  | [t] => t
  | t :: ts => t ++ sep :: joinWith sep ts

/-! ### Numbers (R102: decimal, or hexadecimal with `0x`) -/

/-- The value of a decimal digit. -/
def decVal (c : Byte) : Option Nat :=
  if 0x30 ≤ c.toNat ∧ c.toNat ≤ 0x39 then some (c.toNat - 0x30) else none

/-- The value of a hexadecimal digit, of either case. -/
def hexVal (c : Byte) : Option Nat :=
  if 0x30 ≤ c.toNat ∧ c.toNat ≤ 0x39 then some (c.toNat - 0x30)
  else if 0x41 ≤ c.toNat ∧ c.toNat ≤ 0x46 then some (c.toNat - 0x41 + 10)
  else if 0x61 ≤ c.toNat ∧ c.toNat ≤ 0x66 then some (c.toNat - 0x61 + 10)
  else none

/-- Digits read most significant first, onto an accumulator. -/
def readDigits (val : Byte → Option Nat) (base : Nat) : Nat → Text → Option Nat
  | acc, [] => some acc
  | acc, c :: cs =>
    match val c with
    | some d => readDigits val base (acc * base + d) cs
    | none => none

/-- What follows a prefix. -/
def stripPrefix : Text → Text → Option Text
  | [], t => some t
  | _ :: _, [] => none
  | p :: ps, c :: cs => if p = c then stripPrefix ps cs else none

/-- A natural, decimal or hexadecimal. -/
def readNat? (t : Text) : Option Nat :=
  match stripPrefix (chars ['0', 'x']) t with
  | some [] => none
  | some h => readDigits hexVal 16 0 h
  | none => if t.isEmpty then none else readDigits decVal 10 0 t

/-- The decimal digit of d < 10. -/
def decDigit (d : Nat) : Byte := BitVec.ofNat 8 (0x30 + d)

/-- The hexadecimal digit of d < 16. -/
def hexDigit (d : Nat) : Byte := if d < 10 then BitVec.ofNat 8 (0x30 + d) else BitVec.ofNat 8 (0x41 + (d - 10))

/-- The decimal digits of n, at most `fuel` of them. -/
def decDigits : Nat → Nat → Text
  | 0, _ => []
  | fuel + 1, n => if n < 10 then [decDigit n] else decDigits fuel (n / 10) ++ [decDigit (n % 10)]

/-- A natural in decimal. -/
def natText (n : Nat) : Text := decDigits (n + 1) n

/-- A byte in hexadecimal, as R102 writes bytes. -/
def byteText (b : Byte) : Text :=
  chars ['0', 'x'] ++ [hexDigit (b.toNat / 16), hexDigit (b.toNat % 16)]

/-! ### Operand values -/

/-- A natural operand. -/
def readNat (t : Text) : Except DecodeError Nat :=
  match readNat? t with
  | some n => .ok n
  | none => .error (.badValue t)

/-- An unsigned operand of w bits: a value outside the type cannot be written down (R81). -/
def readBits (w : Nat) (t : Text) : Except DecodeError (BitVec w) :=
  match readNat? t with
  | some n => if n < 2 ^ w then .ok (BitVec.ofNat w n) else .error (.outsideType t)
  | none => .error (.badValue t)

/-- A 1-bit operand. -/
def readBool (t : Text) : Except DecodeError Bool :=
  match readNat? t with
  | some 0 => .ok false
  | some 1 => .ok true
  | some _ => .error (.outsideType t)
  | none => .error (.badValue t)

/-- The names of R102 for the variants. -/
def variantText : Variant → Text
  | .gecco => chars ['g', 'e', 'c', 'c', 'o']
  | .asic => chars ['a', 's', 'i', 'c']

/-- A variant. -/
def readVariant (t : Text) : Except DecodeError Variant :=
  if t = variantText .gecco then .ok .gecco
  else if t = variantText .asic then .ok .asic
  else .error (.badValue t)

/-- A bit of a bit-vector. -/
def bitText (x : Bool) : Byte := if x then 0x31#8 else 0x30#8

/-- The bits of a bit-vector, index 0 first. -/
def readVecBits : Text → Option (List Bool)
  | [] => some []
  | c :: cs =>
    if c = 0x30#8 then (readVecBits cs).map (false :: ·)
    else if c = 0x31#8 then (readVecBits cs).map (true :: ·)
    else none

/-- R102: "a `b` followed by their bits, index 0 first". -/
def vecText (vec : List Bool) : Text := 0x62#8 :: vec.map bitText

/-- A bit-vector. -/
def readVec (t : Text) : Except DecodeError (List Bool) :=
  match t with
  | [] => .error (.badValue t)
  | c :: cs =>
    if c = 0x62#8 then
      match readVecBits cs with
      | some v => .ok v
      | none => .error (.badValue t)
    else .error (.badValue t)

/-- Each piece a byte. -/
def readBytes : List Text → Except DecodeError (List Byte)
  | [] => .ok []
  | t :: ts =>
    match readBits 8 t with
    | .error e => .error e
    | .ok b =>
      match readBytes ts with
      | .error e => .error e
      | .ok bs => .ok (b :: bs)

/-- Bytes between an opening and a closing character, separated by commas. -/
def readByteList (opening closing : Byte) (t : Text) : Except DecodeError (List Byte) :=
  match t with
  | [] => .error (.badValue t)
  | c :: cs =>
    if c = opening ∧ cs.getLast? = some closing then
      if cs.dropLast.isEmpty then .ok [] else readBytes (splitAtSep isComma cs.dropLast)
    else .error (.badValue t)

/-- The text of such a list. -/
def byteListText (opening closing : Byte) (bs : List Byte) : Text :=
  opening :: (joinWith 0x2C#8 (bs.map byteText) ++ [closing])

/-- The set of the bytes in a list, as a 256-bit membership mask (10_state.md R27). -/
def byteSet (bs : List Byte) : BitVec 256 := bs.foldl (fun m b => m ||| BitVec.twoPow 256 b.toNat) 0

/-- The members of a set, in rising order. -/
def bytesOfSet (m : BitVec 256) : List Byte := ((List.range 256).filter m.getLsbD).map (BitVec.ofNat 8)

/-- A header set: bytes between braces (R102). -/
def readSet (t : Text) : Except DecodeError (BitVec 256) :=
  match readByteList 0x7B#8 0x7D#8 t with
  | .ok bs => .ok (byteSet bs)
  | .error e => .error e

/-- The text of a header set. -/
def setText (m : BitVec 256) : Text := byteListText 0x7B#8 0x7D#8 (bytesOfSet m)

/-! ### Operands by key -/

/-- `key=value` as one token. -/
def fieldText (key value : Text) : Text := key ++ 0x3D#8 :: value

/-- The value of `key=` if the next token is that operand, and the tokens after it. -/
def takeOpt (key : Text) (toks : List Text) : Option Text × List Text :=
  match toks with
  | [] => (none, [])
  | t :: rest =>
    match stripPrefix (key ++ [0x3D#8]) t with
    | some v => (some v, rest)
    | none => (none, t :: rest)

/-- The operand `key=`, read by `read`; it must stand here. -/
def field {α : Type} (key : Text) (read : Text → Except DecodeError α) (toks : List Text) :
    Except DecodeError (α × List Text) :=
  match takeOpt key toks with
  | (some v, rest) =>
    match read v with
    | .ok x => .ok (x, rest)
    | .error e => .error e
  | (none, _) => .error (.missingField key)

/-- An operand that may be left out; its value is then `dflt` (R102: "A field that the operation ignores is
left out of the text, and GEN's record then holds 0 in that field"). -/
def optField {α : Type} (key : Text) (read : Text → Except DecodeError α) (dflt : α) (toks : List Text) :
    Except DecodeError (α × List Text) :=
  match takeOpt key toks with
  | (some v, rest) =>
    match read v with
    | .ok x => .ok (x, rest)
    | .error e => .error e
  | (none, rest) => .ok (dflt, rest)

/-! ### Keys and names -/

def kRev : Text := chars ['r', 'e', 'v']
def kFw : Text := chars ['f', 'w']
def kHdr : Text := chars ['h', 'd', 'r']
def kNchips : Text := chars ['n', 'c', 'h', 'i', 'p', 's']
def kVariant : Text := chars ['v', 'a', 'r', 'i', 'a', 'n', 't']
def kClkdiv : Text := chars ['c', 'l', 'k', 'd', 'i', 'v']
def kLoad : Text := chars ['l', 'o', 'a', 'd']
def kBcast : Text := chars ['b', 'c', 'a', 's', 't']
def kChip : Text := chars ['c', 'h', 'i', 'p']
def kNload : Text := chars ['n', 'l', 'o', 'a', 'd']
def kVec : Text := chars ['v', 'e', 'c']
def kTarget : Text := chars ['t', 'a', 'r', 'g', 'e', 't']
def kLegacy : Text := chars ['l', 'e', 'g', 'a', 'c', 'y']
def kSpi : Text := chars ['s', 'p', 'i']
def kRaw : Text := chars ['r', 'a', 'w']
def kLen : Text := chars ['l', 'e', 'n']
/-- A one-letter key: the letter the table's row gives the field. -/
def kOne (c : Char) : Text := chars [c]

/-- The name of a row, as spec/opcode_table.json spells it. -/
def Row.name : Row → Text
  | .config => chars ['C', 'O', 'N', 'F', 'I', 'G']
  | .configChips => chars ['C', 'O', 'N', 'F', 'I', 'G', '_', 'C', 'H', 'I', 'P', 'S']
  | .push => chars ['P', 'U', 'S', 'H']
  | .endBurst => chars ['E', 'N', 'D']
  | .gen => chars ['G', 'E', 'N']
  | .step => chars ['S', 'T', 'E', 'P']
  | .len => chars ['L', 'E', 'N']
  | .reset => chars ['R', 'E', 'S', 'E', 'T']
  | .fmtHdr => chars ['F', 'M', 'T', '-', 'H', 'D', 'R']
  | .fmtHit5 => chars ['F', 'M', 'T', '-', 'H', 'I', 'T', '5']
  | .fmtHitN => chars ['F', 'M', 'T', '-', 'H', 'I', 'T', 'N']
  | .legData => chars ['L', 'E', 'G', '-', 'D', 'A', 'T', 'A']
  | .legPatGecco => chars ['L', 'E', 'G', '-', 'P', 'A', 'T', '-', 'G', 'E', 'C', 'C', 'O']
  | .legPatAsic => chars ['L', 'E', 'G', '-', 'P', 'A', 'T', '-', 'A', 'S', 'I', 'C']
  | .legTrailer => chars ['L', 'E', 'G', '-', 'T', 'R', 'A', 'I', 'L', 'E', 'R']
  | .spiHdr => chars ['S', 'P', 'I', '-', 'H', 'D', 'R']
  | .spiBit => chars ['S', 'P', 'I', '-', 'B', 'I', 'T']
  | .spiLoad => chars ['S', 'P', 'I', '-', 'L', 'O', 'A', 'D']
  | .spiEmpty => chars ['S', 'P', 'I', '-', 'E', 'M', 'P', 'T', 'Y']
  | .lenHdr => chars ['L', 'E', 'N', '-', 'H', 'D', 'R']

/-- Every row once. -/
def Row.all : List Row :=
  [.config, .configChips, .push, .endBurst, .gen, .step, .len, .reset, .fmtHdr, .fmtHit5, .fmtHitN, .legData,
   .legPatGecco, .legPatAsic, .legTrailer, .spiHdr, .spiBit, .spiLoad, .spiEmpty, .lenHdr]

/-- The row of a name. -/
def Row.ofName (t : Text) : Option Row := Row.all.find? fun r => r.name == t

/-- The pseudo-operations of R103. -/
def nPushs : Text := chars ['P', 'U', 'S', 'H', 'S']
def nDecode : Text := chars ['D', 'E', 'C', 'O', 'D', 'E']
def nDrain : Text := chars ['D', 'R', 'A', 'I', 'N']
def nGenerate : Text := chars ['G', 'E', 'N', 'E', 'R', 'A', 'T', 'E']

/-! ### Jobs (R102) -/

/-- The target of a SPI job. -/
inductive Target where
  | bcast
  | chip (c : BitVec 6)
  deriving DecidableEq, Repr

/-- `bcast` or `chip:<c>`. -/
def readTarget (t : Text) : Except DecodeError Target :=
  if t = kBcast then .ok .bcast
  else
    match stripPrefix (kChip ++ [0x3A#8]) t with
    | some v =>
      match readBits 6 v with
      | .ok c => .ok (.chip c)
      | .error e => .error e
    | none => .error (.badValue t)

/-- The text of a target. -/
def targetText : Target → Text
  | .bcast => kBcast
  | .chip c => kChip ++ 0x3A#8 :: natText c.toNat

/-- The operands of a LEGACY job. The fields it ignores (bcast, chip, nload) may be left out. -/
def readLegacyJob (toks : List Text) : Except DecodeError (Job × List Text) := do
  let (variant, toks) ← field kVariant readVariant toks
  let (clkdiv, toks) ← field kClkdiv readNat toks
  let (load, toks) ← field kLoad readBool toks
  let (bcast, toks) ← optField kBcast readBool false toks
  let (chip, toks) ← optField kChip (readBits 6) 0 toks
  let (nload, toks) ← optField kNload readNat 0 toks
  let (vec, toks) ← field kVec readVec toks
  return ({ proto := .legacy, variant, clkdiv, load, bcast, chip, nload, vec }, toks)

/-- nload: an operand of a SPI job with load; left out, 0, without (R102, WV-15). -/
def readNload (load : Bool) (toks : List Text) : Except DecodeError (Nat × List Text) :=
  if load then field kNload readNat toks else optField kNload readNat 0 toks

/-- The operands of a SPI job. The fields it ignores (variant, clkdiv, the chip of a broadcast, nload without
load) may be left out. -/
def readSpiJob (toks : List Text) : Except DecodeError (Job × List Text) := do
  let (target, toks) ← field kTarget readTarget toks
  let (variant, toks) ← optField kVariant readVariant .gecco toks
  let (clkdiv, toks) ← optField kClkdiv readNat 0 toks
  let (bcast, chip, toks) ←
    match target with
    | .bcast => do
      let (c, toks) ← optField kChip (readBits 6) 0 toks
      pure (true, c, toks)
    | .chip c => pure (false, c, toks)
  let (load, toks) ← field kLoad readBool toks
  let (nload, toks) ← readNload load toks
  let (vec, toks) ← field kVec readVec toks
  return ({ proto := .spi, variant, clkdiv, load, bcast, chip, nload, vec }, toks)

/-- The operands of GEN. -/
def readJob (toks : List Text) : Except DecodeError (Job × List Text) :=
  match toks with
  | [] => .error (.missingField kLegacy)
  | t :: rest =>
    if t = kLegacy then readLegacyJob rest
    else if t = kSpi then readSpiJob rest
    else .error (.badValue t)

/-! ### One operation -/

/-- Nothing may follow the last operand, and the term must be well-formed. -/
def finish (i : Instr) (rest : List Text) : Except DecodeError Instr :=
  match rest with
  | [] => if i.wellFormed then .ok i else .error .illFormed
  | _ :: _ => .error (.trailing rest)

/-- The operands of each row, in the order of R102; for a format row, in the order of its bits. -/
def readOperands (r : Row) (toks : List Text) : Except DecodeError Instr :=
  match r with
  | .config => do
    let (rev, toks) ← field kRev readBool toks
    let (fw, toks) ← field kFw (readBits 4) toks
    let (hdr, toks) ← field kHdr readSet toks
    finish (.config rev fw hdr) toks
  | .configChips => do
    let (rev, toks) ← field kRev readBool toks
    let (fw, toks) ← field kFw (readBits 4) toks
    let (nchips, toks) ← field kNchips (readBits 6) toks
    finish (.configChips rev fw nchips) toks
  | .push =>
    match toks with
    | [] => .error (.badValue [])
    | t :: rest => do
      let b ← readBits 8 t
      finish (.push b) rest
  | .endBurst => finish .endBurst toks
  | .gen => do
    let (job, toks) ← readJob toks
    finish (.gen job) toks
  | .step => finish .step toks
  | .len => finish .len toks
  | .reset => finish .reset toks
  | .fmtHdr => do
    let (i, toks) ← field (kOne 'i') (readBits 5) toks
    let (w, toks) ← field (kOne 'w') (readBits 3) toks
    finish (.fmtHdr i w) toks
  | .fmtHit5 => do
    let (c, toks) ← field (kOne 'c') (readBits 5) toks
    let (p, toks) ← field (kOne 'p') (readBits 3) toks
    let (k, toks) ← field (kOne 'k') (readBits 1) toks
    let (r, toks) ← field (kOne 'r') (readBits 1) toks
    let (l, toks) ← field (kOne 'l') (readBits 6) toks
    let (t, toks) ← field (kOne 't') (readBits 8) toks
    let (e, toks) ← field (kOne 'e') (readBits 4) toks
    let (m, toks) ← field (kOne 'm') (readBits 4) toks
    let (n, toks) ← field (kOne 'n') (readBits 8) toks
    finish (.fmtHit5 c p k r l t e m n) toks
  | .fmtHitN => do
    let (raw, toks) ← field kRaw (readByteList 0x5B#8 0x5D#8) toks
    finish (.fmtHitN raw) toks
  | .legData => do
    let (v, toks) ← field kVariant readVariant toks
    let (x, toks) ← field (kOne 'x') readBool toks
    finish (.legData v x) toks
  | .legPatGecco => do
    let (x, toks) ← field (kOne 'x') readBool toks
    let (c, toks) ← field kClkdiv readNat toks
    finish (.legPatGecco x c) toks
  | .legPatAsic => do
    let (x, toks) ← field (kOne 'x') readBool toks
    let (c, toks) ← field kClkdiv readNat toks
    finish (.legPatAsic x c) toks
  | .legTrailer => do
    let (v, toks) ← field kVariant readVariant toks
    let (c, toks) ← field kClkdiv readNat toks
    finish (.legTrailer v c) toks
  | .spiHdr => do
    let (t, toks) ← field (kOne 't') (readBits 3) toks
    let (i, toks) ← field (kOne 'i') (readBits 5) toks
    finish (.spiHdr t i) toks
  | .spiBit => do
    let (x, toks) ← field (kOne 'x') readBool toks
    finish (.spiBit x) toks
  | .spiLoad => finish .spiLoad toks
  | .spiEmpty => finish .spiEmpty toks
  | .lenHdr => do
    let (n, toks) ← field kLen (readBits 16) toks
    finish (.lenHdr n) toks

/-- One operation from its tokens. -/
def decodeTokens (toks : List Text) : Except DecodeError Instr :=
  match toks with
  | [] => .error (.unknownOperation [])
  | t :: rest =>
    match Row.ofName t with
    | some r => readOperands r rest
    | none => .error (.unknownOperation t)

/-- One operation from its text line. -/
def decodeInstr (line : Text) : Except DecodeError Instr := decodeTokens (tokens line)

/-! ### Lines, pseudo-operations, programs -/

/-- What a line stands for: operations to issue in order, then, for DRAIN and GENERATE, STEP repeated while
WSQ.PHASE = RUN (R103). -/
structure Expansion where
  ops : List Instr
  drain : Bool
  deriving DecidableEq, Repr

/-- A bracketed list that blanks have cut into tokens: each cut stands after a comma. -/
def joinBracket : List Text → Option Text
  | [] => none
  | [t] => some t
  | t :: ts => if t.getLast? = some 0x2C#8 then (joinBracket ts).map (t ++ ·) else none

/-- `[b0, b1, ..., bk]` (R103). -/
def readBracket (toks : List Text) : Except DecodeError (List Byte) :=
  match joinBracket toks with
  | some t => readByteList 0x5B#8 0x5D#8 t
  | none => .error (.badValue toks.flatten)

/-- The expansion of a line's tokens. A line with no token issues nothing. -/
def expandTokens (toks : List Text) : Except DecodeError Expansion :=
  match toks with
  | [] => .ok ⟨[], false⟩
  | t :: rest =>
    if t = nPushs then do
      let bs ← readBracket rest
      return ⟨bs.map .push, false⟩
    else if t = nDecode then do
      let (rev, rest) ← field kRev readBool rest
      let (fw, rest) ← field kFw (readBits 4) rest
      let (hdr, rest) ← field kHdr readSet rest
      let bs ← readBracket rest
      return ⟨.config rev fw hdr :: (bs.map .push ++ [.endBurst]), false⟩
    else if t = nDrain then
      match rest with
      | [] => .ok ⟨[], true⟩
      | _ :: _ => .error (.trailing rest)
    else if t = nGenerate then do
      let (job, rest) ← readJob rest
      let i ← finish (.gen job) rest
      return ⟨[i], true⟩
    else do
      let i ← decodeTokens (t :: rest)
      return ⟨[i], false⟩

/-- What one line of a program stands for. -/
def decodeLine (line : Text) : Except DecodeError Expansion := expandTokens (tokens line)

/-- Each line expanded. -/
def expandLines : List Text → Except DecodeError (List Expansion)
  | [] => .ok []
  | l :: ls =>
    match decodeLine l with
    | .error e => .error e
    | .ok x =>
      match expandLines ls with
      | .error e => .error e
      | .ok xs => .ok (x :: xs)

/-- A whole program text, one operation a line (R102). -/
def decodeProgram (text : Text) : Except DecodeError (List Expansion) :=
  expandLines (splitAtSep isNewline text)

/-! ### The encoder -/

/-- A 1-bit operand's text. -/
def boolText (b : Bool) : Text := if b then chars ['1'] else chars ['0']

/-- An ignored operand: left out when it holds 0 (R102). -/
def optText (key : Text) (n : Nat) : List Text := if n = 0 then [] else [fieldText key (natText n)]

/-- The target of a SPI job's record. -/
def Job.target (j : Job) : Target := if j.bcast then .bcast else .chip j.chip

/-- A variant that a SPI job ignores: left out when it is GECCO (R102). -/
def optVariantText : Variant → List Text
  | .gecco => []
  | .asic => [fieldText kVariant (variantText .asic)]

/-- The tokens of a job. -/
def jobTokens (j : Job) : List Text :=
  match j.proto with
  | .legacy =>
    [kLegacy, fieldText kVariant (variantText j.variant), fieldText kClkdiv (natText j.clkdiv),
      fieldText kLoad (boolText j.load)]
    ++ optText kBcast j.bcast.toNat ++ optText kChip j.chip.toNat ++ optText kNload j.nload
    ++ [fieldText kVec (vecText j.vec)]
  | .spi =>
    [kSpi, fieldText kTarget (targetText j.target)]
    ++ optVariantText j.variant ++ optText kClkdiv j.clkdiv
    ++ (if j.bcast then optText kChip j.chip.toNat else [])
    ++ [fieldText kLoad (boolText j.load)]
    ++ (if j.load then [fieldText kNload (natText j.nload)] else optText kNload j.nload)
    ++ [fieldText kVec (vecText j.vec)]

/-- The operand tokens of an instruction. -/
def operandTokens : Instr → List Text
  | .config rev fw hdr =>
    [fieldText kRev (boolText rev), fieldText kFw (natText fw.toNat), fieldText kHdr (setText hdr)]
  | .configChips rev fw nchips =>
    [fieldText kRev (boolText rev), fieldText kFw (natText fw.toNat), fieldText kNchips (natText nchips.toNat)]
  | .push b => [byteText b]
  | .endBurst => []
  | .gen job => jobTokens job
  | .step => []
  | .len => []
  | .reset => []
  | .fmtHdr i w => [fieldText (kOne 'i') (natText i.toNat), fieldText (kOne 'w') (natText w.toNat)]
  | .fmtHit5 c p k r l t e m n =>
    [fieldText (kOne 'c') (natText c.toNat), fieldText (kOne 'p') (natText p.toNat),
      fieldText (kOne 'k') (natText k.toNat), fieldText (kOne 'r') (natText r.toNat),
      fieldText (kOne 'l') (natText l.toNat), fieldText (kOne 't') (natText t.toNat),
      fieldText (kOne 'e') (natText e.toNat), fieldText (kOne 'm') (natText m.toNat),
      fieldText (kOne 'n') (natText n.toNat)]
  | .fmtHitN raw => [fieldText kRaw (byteListText 0x5B#8 0x5D#8 raw)]
  | .legData v x => [fieldText kVariant (variantText v), fieldText (kOne 'x') (boolText x)]
  | .legPatGecco x c => [fieldText (kOne 'x') (boolText x), fieldText kClkdiv (natText c)]
  | .legPatAsic x c => [fieldText (kOne 'x') (boolText x), fieldText kClkdiv (natText c)]
  | .legTrailer v c => [fieldText kVariant (variantText v), fieldText kClkdiv (natText c)]
  | .spiHdr t i => [fieldText (kOne 't') (natText t.toNat), fieldText (kOne 'i') (natText i.toNat)]
  | .spiBit x => [fieldText (kOne 'x') (boolText x)]
  | .spiLoad => []
  | .spiEmpty => []
  | .lenHdr n => [fieldText kLen (natText n.toNat)]

/-- The tokens of an instruction's line. -/
def encodeTokens (i : Instr) : List Text := i.row.name :: operandTokens i

/-- The text line of an instruction, without its end of line (R102). -/
def encode (i : Instr) : Text := joinWith 0x20#8 (encodeTokens i)

/-! ### Byte layouts (R82, R83, R89, R91) -/

/-- FMT-HDR `iiiiiwww`: the chip index in bits 7:3, FW - 1 in bits 2:0 (R82). -/
def headerLayout (i : BitVec 5) (w : BitVec 3) : Byte := i ++ w

/-- FMT-HIT5: the five bytes of a hit frame, each field list most significant bit first (R83). -/
def hit5Layout (c : BitVec 5) (p : BitVec 3) (k : BitVec 1) (r : BitVec 1) (l : BitVec 6) (t : BitVec 8)
    (e : BitVec 4) (m : BitVec 4) (n : BitVec 8) : List Byte :=
  [c ++ p, k ++ r ++ l, t, e ++ m, n]

/-- SPI-HDR `tttiiiii`: the tag in bits 7:5, the id in bits 4:0 (R89). -/
def spiHdrLayout (tag : BitVec 3) (id : BitVec 5) : Byte := tag ++ id

/-- LEN-HDR: bits 15:8, then bits 7:0 of the length (R91). -/
def lenHdrLayout (len : BitVec 16) : Byte × Byte := (len.extractLsb' 8 8, len.extractLsb' 0 8)

/-! ### Raw words of the rows to which the table gives bits -/

/-- The instruction of a raw word, by its width: the table gives FMT-HDR one byte, LEN-HDR two, FMT-HIT5 five.
SPI-HDR is one byte too and no bit tells it from FMT-HDR: a lone byte is read as FMT-HDR, and SPI-HDR is
reached by its text line (log 8). -/
def decodeWord : List Byte → Except DecodeError Instr
  | [b] => .ok (.fmtHdr (b.extractLsb' 3 5) (b.extractLsb' 0 3))
  | [h, l] => .ok (.lenHdr (h ++ l))
  | [b0, b1, b2, b3, b4] =>
    .ok (.fmtHit5 (b0.extractLsb' 3 5) (b0.extractLsb' 0 3) (b1.extractLsb' 7 1) (b1.extractLsb' 6 1)
      (b1.extractLsb' 0 6) b2 (b3.extractLsb' 4 4) (b3.extractLsb' 0 4) b4)
  | bs => .error (.noSuchWidth bs.length)

/-- The raw word of an instruction whose row has bits. -/
def encodeWord : Instr → Option (List Byte)
  | .fmtHdr i w => some [headerLayout i w]
  | .fmtHit5 c p k r l t e m n => some (hit5Layout c p k r l t e m n)
  | .spiHdr tag id => some [spiHdrLayout tag id]
  | .lenHdr len => some [(lenHdrLayout len).1, (lenHdrLayout len).2]
  | .config _ _ _ => none
  | .configChips _ _ _ => none
  | .push _ => none
  | .endBurst => none
  | .gen _ => none
  | .step => none
  | .len => none
  | .reset => none
  | .fmtHitN _ => none
  | .legData _ _ => none
  | .legPatGecco _ _ => none
  | .legPatAsic _ _ => none
  | .legTrailer _ _ => none
  | .spiBit _ => none
  | .spiLoad => none
  | .spiEmpty => none

/-- The bytes of a table word: byte k holds bits 8k+7..8k. -/
def wordBytes (nbits w : Nat) : List Byte :=
  (List.range ((nbits + 7) / 8)).map fun k => BitVec.ofNat 8 (w >>> (8 * k))

/-- The instruction of raw bytes: a word of a row to which the table gives bits, or else a text line. -/
def decodeRaw (bs : List Byte) : Except DecodeError Instr :=
  match decodeWord bs with
  | .ok i => .ok i
  | .error _ => decodeInstr bs

/-- The instruction the decoder reads from a table word. -/
def decodeTableWord (nbits w : Nat) : Option Instr :=
  match decodeRaw (wordBytes nbits w) with
  | .ok i => some i
  | .error _ => none

end Sys2Proof
end

