-- ==== Sys2Proof/Machine/State.lean ====
section
/-! DEFINITION. The state of the block (spec/10_state.md), as plain data, its reset value (R44), and the ways a
step can end. -/

namespace Sys2Proof.Machine

/-! ### Codes -/

/-- The fault codes of spec/60_exceptions.md R221. -/
inductive FaultCode where
  /-- FSD_UNCONFIGURED, raised by PUSH -/
  | fsdUnconfigured
  /-- WSQ_LEN_UNSET, raised by LEN -/
  | wsqLenUnset
  deriving DecidableEq, Repr

/-- The refusal codes of spec/60_exceptions.md R222. -/
inductive RefusalCode where
  /-- FSD_CONFIG_IN_FRAME -/
  | fsdConfigInFrame
  /-- FSD_BAD_FW -/
  | fsdBadFw
  /-- FSD_BAD_NCHIPS -/
  | fsdBadNchips
  /-- WSQ_BUSY -/
  | wsqBusy
  /-- WSQ_BAD_CLKDIV -/
  | wsqBadClkdiv
  /-- WSQ_BAD_CHIPID -/
  | wsqBadChipid
  /-- WSQ_LEN_OVERFLOW -/
  | wsqLenOverflow
  deriving DecidableEq, Repr

/-! ### The FSD (R24 to R32) -/

/-- FSD.MODE (R28). -/
inductive FsdMode where
  | hunt
  | collect
  deriving DecidableEq, Repr

/-- The decoded fields of a 5-byte frame (40_frame_decoder.md R130), each with its width of
30_encoding.md R93. -/
structure HitFields where
  chipId : BitVec 5
  payload : BitVec 3
  isColumn : BitVec 1
  location : BitVec 6
  timestamp : BitVec 8
  totMsb : BitVec 4
  totLsb : BitVec 8
  timeOverThreshold : BitVec 12
  deriving DecidableEq, Repr

/-- A frame record (R31): the logical bytes, header first, and the fields of a 5-byte frame. -/
structure FrameRecord where
  raw : List Byte
  fields : Option HitFields
  deriving DecidableEq, Repr

/-- The registers of the FSD. `none` in rev, fw and hdr is the spec's marker unset (R22). -/
structure Fsd where
  /-- FSD.REV (R25) -/
  rev : Option Bool
  /-- FSD.FW (R26) -/
  fw : Option (BitVec 4)
  /-- FSD.HDR (R27): bit v is 1 exactly when v is a header value -/
  hdr : Option (BitVec 256)
  /-- FSD.MODE (R28) -/
  mode : FsdMode
  /-- FSD.BUF (R29) -/
  buf : List Byte
  /-- FSD.FRAMES (R30) -/
  frames : List FrameRecord
  /-- FSD.FAULT (R32) -/
  fault : Option FaultCode
  deriving DecidableEq, Repr

/-! ### The WSQ (R33 to R39) -/

/-- WSQ.PHASE (R36). -/
inductive Phase where
  | idle
  | run
  deriving DecidableEq, Repr

/-- The registers of the WSQ. `none` in job, jobLen, lenHi and lenLo is the spec's marker unset (R22). -/
structure Wsq where
  /-- WSQ.J (R33) -/
  job : Option Job
  /-- WSQ.J_LEN (R34) -/
  jobLen : Option Nat
  /-- WSQ.POS (R35) -/
  pos : Nat
  /-- WSQ.PHASE (R36) -/
  phase : Phase
  /-- WSQ.LEN_HI (R37) -/
  lenHi : Option Byte
  /-- WSQ.LEN_LO (R37) -/
  lenLo : Option Byte
  /-- WSQ.OUT (R38) -/
  out : List Byte
  /-- WSQ.FAULT (R39) -/
  fault : Option FaultCode
  deriving DecidableEq, Repr

/-! ### The model's own observation and schedule (logs 2, 3, 4) -/

/-- What the last operation gave back to the host (60_exceptions.md R220, R238). -/
inductive Report where
  /-- no operation yet -/
  | nothing
  /-- the operation completed and gives nothing back -/
  | done
  /-- the result of LEN (41_waveform.md R186) -/
  | lenPair (hi lo : Byte)
  /-- the operation raised this fault -/
  | faulted (c : FaultCode)
  /-- the operation was refused -/
  | refusal (c : RefusalCode)
  /-- the bytes of a byte format (log 6) -/
  | bytes (bs : List Byte)
  /-- the record of a frame format (log 6) -/
  | record (r : FrameRecord)
  deriving DecidableEq, Repr

/-- The observation of a run and what decides whether it ends well (70_reset_and_hazards.md R254). -/
structure RunRecord where
  frames : List FrameRecord
  out : List Byte
  lenReads : List (Byte × Byte)
  fsdFault : Option FaultCode
  wsqFault : Option FaultCode
  refused : Bool
  mode : FsdMode
  phase : Phase
  deriving DecidableEq, Repr

/-- One entry of the host's schedule. -/
inductive HostItem where
  /-- an operation -/
  | op (i : Instr)
  /-- a text line of a program (30_encoding.md R102, R103) -/
  | line (text : Text)
  /-- raw bytes (log 8) -/
  | word (bytes : List Byte)
  /-- STEP repeated while WSQ.PHASE = RUN (R103) -/
  | drain
  deriving DecidableEq, Repr

/-- The state: the two engines, the mark REFUSED (R40), and the model's own fields. -/
structure State where
  fsd : Fsd
  wsq : Wsq
  /-- REFUSED (R40) -/
  refused : Bool
  /-- model's own: what the last operation gave back (log 2) -/
  report : Report
  /-- model's own: the values LEN returned in this run, oldest first (R254; log 2) -/
  lenReads : List (Byte × Byte)
  /-- model's own: the observations of the runs that a RESET ended, oldest first (R250; log 4) -/
  ended : List RunRecord
  /-- model's own: what the host has still to issue (log 3) -/
  pending : List HostItem
  deriving DecidableEq, Repr

/-! ### The ways a step can stop -/

/-- A stuck state: the outcome "no step" of spec/60_exceptions.md R220, "The issuing agent cannot proceed". It
is NOT the spec's Fault, which writes a fault register and is a next state (log 1). -/
inductive Fault where
  /-- raised by STEP when WSQ.PHASE = IDLE (41_waveform.md R184: "STEP in IDLE has no step"); safe -/
  | noStepIdle
  /-- raised by CONFIG, CONFIG_CHIPS, PUSH and END when FSD.FAULT is not none (R223); safe -/
  | noStepFsdFaulted
  /-- raised by GEN, STEP and LEN when WSQ.FAULT is not none (R223); safe -/
  | noStepWsqFaulted
  /-- raised by step when the host has issued nothing: the run ends there (70_reset_and_hazards.md R254); safe -/
  | noOperation
  /-- raised by STEP when WSQ.PHASE = RUN and WSQ.J or WSQ.J_LEN is unset, or WSQ.POS lies past the job: no
  reachable state is such (log 9); safe -/
  | noJobByte
  deriving DecidableEq, Repr

/-- No meaning: the host's text or word stands for no operation. These are NOT the spec's refusals, which set
REFUSED and are next states (log 1). -/
inductive Refusal where
  /-- raised by exec's arm of an instruction that has no meaning yet; safe -/
  | notModelled (mnemonic : String)
  /-- raised by step when a line or a word of the schedule stands for no operation (30_encoding.md R81, R102:
  it "cannot be written down"); safe -/
  | undecodable (e : DecodeError)
  /-- raised by FMT-HITN, LEG-PAT-GECCO, LEG-PAT-ASIC and LEG-TRAILER on an operand with which the format does
  not exist: a width outside 1..8 or 5 (R84), a clock divider of 0 (41_waveform.md R171); safe -/
  | noSuchFormat
  deriving DecidableEq, Repr

/-- The state right after RESET (10_state.md R44); the model's own fields are empty (logs 2, 3, 4). -/
def State.reset : State where
  fsd :=
    { rev := none, fw := none, hdr := none, mode := .hunt, buf := [], frames := [], fault := none }
  wsq :=
    { job := none, jobLen := none, pos := 0, phase := .idle, lenHi := none, lenLo := none, out := [],
      fault := none }
  refused := false
  report := .nothing
  lenReads := []
  ended := []
  pending := []

end Sys2Proof.Machine
end

