-- ==== Sys2Proof/Machine/Flags.lean ====
section
/-! DEFINITION. The status values. The block has no flags and no condition codes (spec/10_state.md R41): FSD.MODE
and WSQ.PHASE are its only status values, and these are the values the operations give them. -/

namespace Sys2Proof.Machine

/-- FSD.MODE once a header byte has been taken as a frame's first byte (40_frame_decoder.md R126): a frame of
width 1 is complete at once. -/
def modeAfterHeader (fw : BitVec 4) : FsdMode := if fw = 1#4 then .hunt else .collect

/-- FSD.MODE once a body byte has made the buffer `len` bytes long (R126). -/
def modeAfterBody (fw : BitVec 4) (len : Nat) : FsdMode := if len = fw.toNat then .hunt else .collect

/-- WSQ.PHASE after an accepted GEN of a job of length len (41_waveform.md R172). -/
def phaseAfterGen (len : Nat) : Phase := if len = 0 then .idle else .run

/-- WSQ.PHASE after a STEP that left WSQ.POS = pos (R184). -/
def phaseAfterStep (pos len : Nat) : Phase := if pos = len then .idle else .run

end Sys2Proof.Machine
end

