-- ==== Sys2Proof/Machine/Params.lean ====
section
/-! DEFINITION. The parameters of spec/00_scope.md R6: those with a value, the legality of the OPEN ones
(spec/41_waveform.md R170), and the one legal set the machine runs with, of which nothing but its legality can
be proved (log 5). -/

namespace Sys2Proof.Machine

/-- ID_BITS: shift of the chip index in a header byte (R6, D7). -/
abbrev idBits : Nat := 3

/-- The largest legal frame width (R6, D6). -/
abbrev fwMax : Nat := 8

/-- The largest chip count CONFIG_CHIPS accepts (R6, D8). -/
abbrev nchipsMax : Nat := 32

/-- The largest chip id a routed SPI header can hold (41_waveform.md R171). -/
abbrev chipMax : Nat := 31

/-- P_v: bytes per bit of a legacy variant (R6). -/
def patLen : Variant → Nat
  | .gecco => 3
  | .asic => 5

/-- T_v: the trailer length of a legacy variant, in units of the clock divider (R6). -/
def trailerUnits : Variant → Nat
  | .gecco => 20
  | .asic => 30

/-- LOAD_HIGH: the load pulse, in units of the clock divider (R6). -/
abbrev loadHigh : Nat := 10

/-- The largest length a 16-bit length header holds (R6 LEN_BITS, 30_encoding.md R91). -/
abbrev lenMax : Nat := 0xFFFF

/-- A byte with exactly one bit set drives one line (R170). -/
def oneLine (m : Byte) : Prop := ∃ k : Nat, k < 8 ∧ m = BitVec.twoPow 8 k

/-- R170: which parameter sets are a model of this block. -/
def LegalParams (p : Params) : Prop :=
  ((∀ v, oneLine (p.sin v)) ∧ (∀ v, oneLine (p.ck1 v)) ∧ (∀ v, oneLine (p.ld v)) ∧ oneLine p.ck2) ∧
  (∀ v, p.sin v ≠ p.ck1 v ∧ p.sin v ≠ p.ld v ∧ p.ck1 v ≠ p.ld v) ∧
  (p.ck2 ≠ p.sin .asic ∧ p.ck2 ≠ p.ck1 .asic ∧ p.ck2 ≠ p.ld .asic) ∧
  (∀ v c, 1 ≤ c → 1 ≤ p.loadPre v c ∧ p.loadPre v c ≤ (trailerUnits v - loadHigh) * c - 1) ∧
  p.tagBcast ≠ p.tagRouted ∧ p.bit0 ≠ p.bit1

/-- The byte that drives GPIO bit k. -/
def lineMask (k : Fin 8) : Byte := BitVec.twoPow 8 k.val

/-- The GPIO bits of a variant's lines: serial-in, clock 1, load, and (ASIC) clock 2. -/
def lines : Variant → Equiv.Perm (Fin 8)
  | .gecco => Config.geccoLines
  | .asic => Config.asicLines

/-- A free choice brought into 1..n for n ≥ 1. -/
def oneTo (n choice : Nat) : Nat := 1 + choice % n

/-- The parameter set of the block: the free choices of Config, made legal. Every legal value of each parameter
comes from some choice (log 5). -/
def params : Params where
  sin v := lineMask (lines v 0)
  ck1 v := lineMask (lines v 1)
  ld v := lineMask (lines v 2)
  ck2 := lineMask (lines .asic 3)
  loadPre v c := oneTo ((trailerUnits v - loadHigh) * c - 1) (Config.loadPreChoice v c)
  tagBcast := Config.spiTagBcast
  tagRouted := Config.spiTagBcast + BitVec.ofNat 3 (1 + Config.spiTagGap.val)
  bcastId := Config.spiBcastId
  bit0 := Config.spiBit0
  bit1 := Config.spiBit0 + BitVec.ofNat 8 (1 + Config.spiBitGap.val)
  load := Config.spiLoad
  empty := Config.spiEmpty

end Sys2Proof.Machine
end

