-- ==== Sys2Proof/Machine/Waveform.lean ====
section
/-! DEFINITION. The waveform functions of spec/41_waveform.md (R173 to R182) over the byte formats of
spec/30_encoding.md (R85 to R91), for any parameter set. -/

namespace Sys2Proof.Machine

/-! ### Byte formats of the legacy protocol -/

/-- LEG-DATA: `d_v(x)` (R85). -/
def legacyData (p : Params) (v : Variant) (x : Bool) : Byte := if x then p.sin v else 0x00#8

/-- LEG-PAT-GECCO: `[d, d | CK1, d]` (R86). -/
def patGecco (p : Params) (x : Bool) : List Byte :=
  let d := legacyData p .gecco x
  [d, d ||| p.ck1 .gecco, d]

/-- LEG-PAT-ASIC: `[d, d | CK1, d, d | CK2, d]` (R87). -/
def patAsic (p : Params) (x : Bool) : List Byte :=
  let d := legacyData p .asic x
  [d, d ||| p.ck1 .asic, d, d ||| p.ck2, d]

/-- `pat_v(x)`. -/
def pattern (p : Params) (v : Variant) (x : Bool) : List Byte :=
  match v with
  | .gecco => patGecco p x
  | .asic => patAsic p x

/-- Each byte repeated c times in a row (R175). -/
def stretch (c : Nat) (bs : List Byte) : List Byte := bs.flatMap fun b => rep b c

/-- LEG-TRAILER: `trl_v(C)` (R88). -/
def trailer (p : Params) (v : Variant) (c : Nat) : List Byte :=
  rep 0x00#8 (p.loadPre v c) ++ rep (p.ld v) (loadHigh * c)
    ++ rep 0x00#8 ((trailerUnits v - loadHigh) * c - p.loadPre v c)

/-! ### Byte formats of the SPI protocol -/

/-- SPI-BIT: the byte of one bit (R90). -/
def spiBitByte (p : Params) (x : Bool) : Byte := if x then p.bit1 else p.bit0

/-- `spi_target_hdr(job)` (R180): of a routed job, the low five bits of a chip id that GEN has
checked (log 13). -/
def spiTargetHdr (p : Params) (job : Job) : Byte :=
  if job.bcast then spiHdrLayout p.tagBcast p.bcastId
  else spiHdrLayout p.tagRouted (job.chip.setWidth 5)

/-! ### The job (R173 to R178) -/

/-- `L(job)` (R173). -/
def jobLength (job : Job) : Nat :=
  match job.proto with
  | .legacy =>
    (job.vec.length * patLen job.variant + if job.load then trailerUnits job.variant else 0) * job.clkdiv
  | .spi => 1 + job.vec.length + if job.load then 2 * job.nload else 0

/-- `leg_body(job)` (R175). -/
def legacyBody (p : Params) (job : Job) : List Byte :=
  job.vec.flatMap fun x => stretch job.clkdiv (pattern p job.variant x)

/-- `spi_seq(job)` (R178). -/
def spiSeq (p : Params) (job : Job) : List Byte :=
  [spiTargetHdr p job] ++ job.vec.map (spiBitByte p)
    ++ if job.load then rep p.load job.nload ++ rep p.empty job.nload else []

/-- `wave(job)` (R174). -/
def wave (p : Params) (job : Job) : List Byte :=
  match job.proto with
  | .legacy => legacyBody p job ++ if job.load then trailer p job.variant job.clkdiv else []
  | .spi => spiSeq p job

/-! ### Byte at an index (R182) -/

/-- The byte of a LEGACY job at index t, from the sequencer's counters (R182). -/
def legacyByteAt (p : Params) (job : Job) (t : Nat) : Byte :=
  let len := patLen job.variant
  let c := job.clkdiv
  let b := job.vec.length * len * c
  if t < b then
    let k := t / (len * c)
    let j := t % (len * c) / c
    (pattern p job.variant (job.vec.getD k false)).getD j 0
  else
    let u := t - b
    if p.loadPre job.variant c ≤ u ∧ u < p.loadPre job.variant c + loadHigh * c then p.ld job.variant else 0x00#8

/-- The byte of a SPI job at index t (R182). -/
def spiByteAt (p : Params) (job : Job) (t : Nat) : Byte :=
  let n := job.vec.length
  if t = 0 then spiTargetHdr p job
  else if t ≤ n then spiBitByte p (job.vec.getD (t - 1) false)
  else if t ≤ n + job.nload then p.load
  else p.empty

/-- The byte of a job at index t (R182). -/
def byteAt (p : Params) (job : Job) (t : Nat) : Byte :=
  match job.proto with
  | .legacy => legacyByteAt p job t
  | .spi => spiByteAt p job t

/-- The length header of a length: (LEN_HI, LEN_LO) = (L[15:8], L[7:0]) (R91, R68). -/
def lengthHeader (len : Nat) : Byte × Byte := lenHdrLayout (BitVec.ofNat 16 len)

end Sys2Proof.Machine
end

