-- ==== Sys2Proof/Machine/Operands.lean ====
section
/-! DEFINITION. The legality of operand values (spec/30_encoding.md R81, R99; spec/41_waveform.md R171) and the
refusal each operation reports, in the order of spec/60_exceptions.md R228. -/

namespace Sys2Proof.Machine

/-- A legal frame width (R26, R99). -/
def fwLegal (fw : BitVec 4) : Bool := decide (1 ≤ fw.toNat) && decide (fw.toNat ≤ fwMax)

/-- A legal chip count (R99). -/
def nchipsLegal (nchips : BitVec 6) : Bool := decide (nchips.toNat ≤ nchipsMax)

/-- The job's clock divider is legal, or ignored (R171). -/
def clkdivLegal (job : Job) : Bool := !(job.proto == .legacy && job.clkdiv == 0)

/-- The job's chip id is legal, or ignored (R171). -/
def chipLegal (job : Job) : Bool := !(job.proto == .spi && !job.bcast && decide (chipMax < job.chip.toNat))

/-- The job's length fits the length header, or it has none (R171). -/
def lengthLegal (job : Job) : Bool := !(job.proto == .legacy && decide (lenMax < jobLength job))

/-- A legal job (R171). -/
def jobLegal (job : Job) : Bool := clkdivLegal job && chipLegal job && lengthLegal job

/-- What CONFIG refuses (40_frame_decoder.md R124). -/
def configRefusal (mode : FsdMode) (fw : BitVec 4) : Option RefusalCode :=
  if mode = .collect then some .fsdConfigInFrame
  else if !fwLegal fw then some .fsdBadFw
  else none

/-- What CONFIG_CHIPS refuses (40_frame_decoder.md R125). -/
def configChipsRefusal (mode : FsdMode) (fw : BitVec 4) (nchips : BitVec 6) : Option RefusalCode :=
  if mode = .collect then some .fsdConfigInFrame
  else if !fwLegal fw then some .fsdBadFw
  else if !nchipsLegal nchips then some .fsdBadNchips
  else none

/-- What GEN refuses (41_waveform.md R172). -/
def genRefusal (phase : Phase) (job : Job) : Option RefusalCode :=
  if phase = .run then some .wsqBusy
  else if !clkdivLegal job then some .wsqBadClkdiv
  else if !chipLegal job then some .wsqBadChipid
  else if !lengthLegal job then some .wsqLenOverflow
  else none

/-- The number of a fault code (R221). -/
def FaultCode.number : FaultCode → Nat
  | .fsdUnconfigured => 1
  | .wsqLenUnset => 2

/-- The number of a refusal code (R222). -/
def RefusalCode.number : RefusalCode → Nat
  | .fsdConfigInFrame => 16
  | .fsdBadFw => 17
  | .fsdBadNchips => 18
  | .wsqBusy => 19
  | .wsqBadClkdiv => 20
  | .wsqBadChipid => 21
  | .wsqLenOverflow => 22

end Sys2Proof.Machine
end

