-- ==== Sys2Proof/Machine/Ops.lean ====
section
/-! DEFINITION. The shared operations: the four outcomes of spec/60_exceptions.md R220, the helper functions of
spec/40_frame_decoder.md (R120 to R123, R129, R130), and how the host's schedule issues an operation. -/

namespace Sys2Proof.Machine

/-- What a meaning answers. -/
abbrev Result := Host.Outcome State Fault Refusal

/-! ### Outcomes (60_exceptions.md R220, R223, R224, R228) -/

/-- Every FSD operation first checks FSD.FAULT; if it is not none there is no step (R223). -/
def fsdOperation (k : State → Result) (s : State) : Result :=
  match s.fsd.fault with
  | none => k s
  | some _ => .fault .noStepFsdFaulted

/-- Every WSQ operation first checks WSQ.FAULT; if it is not none there is no step (R223). -/
def wsqOperation (k : State → Result) (s : State) : Result :=
  match s.wsq.fault with
  | none => k s
  | some _ => .fault .noStepWsqFaulted

/-- Raise a fault in the FSD: its fault register takes the code, no other register is written (R223). -/
def raiseFsd (c : FaultCode) (s : State) : State :=
  { s with fsd := { s.fsd with fault := some c }, report := .faulted c }

/-- Raise a fault in the WSQ (R223). -/
def raiseWsq (c : FaultCode) (s : State) : State :=
  { s with wsq := { s.wsq with fault := some c }, report := .faulted c }

/-- Refuse an operation: the mark REFUSED is set, no register of either engine changes (R224). -/
def refuse (c : RefusalCode) (s : State) : State := { s with refused := true, report := .refusal c }

/-- Refuse if there is something to refuse, go on otherwise (R228). -/
def unlessRefused (r : Option RefusalCode) (k : State → Result) (s : State) : Result :=
  match r with
  | some c => .next (refuse c s)
  | none => k s

/-! ### Logical bytes and header sets -/

/-- `bitrev8(b)`: bit i is bit 7 - i of b (R120). -/
def bitrev8 (b : Byte) : Byte :=
  b.extractLsb' 0 1 ++ b.extractLsb' 1 1 ++ b.extractLsb' 2 1 ++ b.extractLsb' 3 1 ++
    b.extractLsb' 4 1 ++ b.extractLsb' 5 1 ++ b.extractLsb' 6 1 ++ b.extractLsb' 7 1

/-- `lb(b)`: the logical byte of a raw byte (R121). -/
def logicalByte (rev : Bool) (b : Byte) : Byte := if rev then bitrev8 b else b

/-- `is_hdr(v)` (R122). -/
def isHdr (hdr : BitVec 256) (v : Byte) : Bool := hdr.getLsbD v.toNat

/-- `(i << id_bits) + (fw - 1)`, exactly, on naturals (30_encoding.md R92). -/
def headerValue (i fw : Nat) : Nat := (i <<< idBits) + (fw - 1)

/-- `HSET(nchips, fw)` (R123). -/
def hset (nchips fw : Nat) : BitVec 256 :=
  byteSet ((List.range nchips).map fun i => BitVec.ofNat 8 (headerValue i fw))

/-! ### Frames -/

/-- `FDEC5(buf)` (R130): the fields of a 5-byte frame at the bit positions of 30_encoding.md R83, the time over
threshold assembled by 20_memory.md R65. -/
def fdec5 : List Byte → Option HitFields
  | [b0, b1, b2, b3, b4] =>
    some
      { chipId := b0.extractLsb' 3 5
        payload := b0.extractLsb' 0 3
        isColumn := b1.extractLsb' 7 1
        location := b1.extractLsb' 0 6
        timestamp := b2
        totMsb := b3.extractLsb' 0 4
        totLsb := b4
        timeOverThreshold := (b3.extractLsb' 0 4).setWidth 12 <<< 8 ||| b4.setWidth 12 }
  | _ => none

/-- The record of a frame of width fw (R129, R31; other widths by 30_encoding.md R84). -/
def frameRecord (fw : BitVec 4) (buf : List Byte) : FrameRecord where
  raw := buf
  fields := if fw = 5#4 then fdec5 buf else none

/-- `emit_frame(buf)`: append one record to FSD.FRAMES (R129). -/
def emitFrame (fw : BitVec 4) (buf : List Byte) (f : Fsd) : Fsd :=
  { f with frames := f.frames ++ [frameRecord fw buf] }

/-! ### Classification of an input byte (30_encoding.md R96) -/

/-- The classes of R96. -/
inductive ByteClass where
  | header
  | skip
  | body
  deriving DecidableEq, Repr

/-- The class of a logical byte, from FSD.MODE and FSD.HDR alone (R96). -/
def classify (mode : FsdMode) (hdr : BitVec 256) (v : Byte) : ByteClass :=
  match mode with
  | .hunt => if isHdr hdr v then .header else .skip
  | .collect => .body

/-- A header byte starts a frame; a frame of width 1 is complete with it (R126). -/
def startFrame (fw : BitVec 4) (v : Byte) (f : Fsd) : Fsd :=
  if fw = 1#4 then { emitFrame fw [v] f with buf := [], mode := modeAfterHeader fw }
  else { f with buf := [v], mode := modeAfterHeader fw }

/-- A body byte is appended whatever its value; the one that completes the frame emits it (R126). -/
def extendFrame (fw : BitVec 4) (v : Byte) (f : Fsd) : Fsd :=
  let buf := f.buf ++ [v]
  if buf.length = fw.toNat then { emitFrame fw buf f with buf := [], mode := modeAfterBody fw buf.length }
  else { f with buf := buf, mode := modeAfterBody fw buf.length }

/-- What a logical byte does to the FSD (R126). -/
def takeByte (fw : BitVec 4) (hdr : BitVec 256) (v : Byte) (f : Fsd) : Fsd :=
  match classify f.mode hdr v with
  | .header => startFrame fw v f
  | .skip => f
  | .body => extendFrame fw v f

/-- Load the whole configuration in one step (R24, R124, R125). -/
def configure (rev : Bool) (fw : BitVec 4) (hdr : BitVec 256) (s : State) : State :=
  { s with fsd := { s.fsd with rev := some rev, fw := some fw, hdr := some hdr }, report := .done }

/-! ### Runs (70_reset_and_hazards.md R250, R254) -/

/-- The observation of the current run (R254). -/
def observe (s : State) : RunRecord where
  frames := s.fsd.frames
  out := s.wsq.out
  lenReads := s.lenReads
  fsdFault := s.fsd.fault
  wsqFault := s.wsq.fault
  refused := s.refused
  mode := s.fsd.mode
  phase := s.wsq.phase

/-! ### The host's schedule (log 3) -/

/-- What the schedule issues next. -/
inductive Issue where
  /-- the host issues nothing more -/
  | nothing
  /-- this operation, then the rest of the schedule -/
  | run (i : Instr) (rest : List HostItem)
  /-- the next entry stands for no operation -/
  | bad (e : DecodeError)
  deriving DecidableEq, Repr

/-- The entries a line's expansion puts on the schedule after its first operation. -/
def expansionTail (drain : Bool) (rest : List HostItem) : List HostItem := if drain then .drain :: rest else rest

/-- The next operation of a schedule. DRAIN issues STEP while WSQ.PHASE = RUN and is used up when it is IDLE
(R103); a line that stands for no operation (a comment, `PUSHS []`) is passed over. -/
def issue (phase : Phase) : List HostItem → Issue
  | [] => .nothing
  | .op i :: rest => .run i rest
  | .word bs :: rest =>
    match decodeRaw bs with
    | .ok i => .run i rest
    | .error e => .bad e
  | .drain :: rest =>
    match phase with
    | .run => .run .step (.drain :: rest)
    | .idle => issue phase rest
  | .line text :: rest =>
    match decodeLine text with
    | .error e => .bad e
    | .ok x =>
      match x.ops with
      | i :: more => .run i (more.map .op ++ expansionTail x.drain rest)
      | [] =>
        match x.drain, phase with
        | true, .run => .run .step (.drain :: rest)
        | _, _ => issue phase rest

/-- The schedule of a program text: one entry a line (R102). -/
def programItems (text : Text) : List HostItem := (splitAtSep isNewline text).map .line

end Sys2Proof.Machine
end

