-- ==== Sys2Proof/Machine/Formats.lean ====
section
/-! DEFINITION. The meanings of the format rows of spec/opcode_table.json. A byte format is data, not an
operation (spec/30_encoding.md R80, R95): its meaning builds the bytes the format gives for the fields of its
row, over the functions the eight operations use, and leaves them in `report`. No register of either engine
changes and no fault register is consulted (log 6). -/

namespace Sys2Proof.Machine

/-- Give bytes back to the host. -/
def showBytes (bs : List Byte) (s : State) : Result := .next { s with report := .bytes bs }

/-- Give a frame record back to the host. -/
def showRecord (r : FrameRecord) (s : State) : Result := .next { s with report := .record r }

/-- Go on only with an operand with which the format exists. -/
def ifFormat (ok : Bool) (k : State → Result) (s : State) : Result :=
  if ok then k s else .refused .noSuchFormat

/-- FMT-HDR (R82). -/
def execFmtHdr (i : BitVec 5) (w : BitVec 3) (s : State) : Result := showBytes [headerLayout i w] s

/-- FMT-HIT5 (R83): the record of the frame with these fields. -/
def execFmtHit5 (c : BitVec 5) (p : BitVec 3) (k : BitVec 1) (r : BitVec 1) (l : BitVec 6) (t : BitVec 8)
    (e : BitVec 4) (m : BitVec 4) (n : BitVec 8) (s : State) : Result :=
  showRecord (frameRecord 5 (hit5Layout c p k r l t e m n)) s

/-- FMT-HITN (R84): the record of a frame of another width, without fields. -/
def execFmtHitN (raw : List Byte) (s : State) : Result :=
  ifFormat (hitNWidthOk raw) (showRecord (frameRecord (BitVec.ofNat 4 raw.length) raw)) s

/-- LEG-DATA (R85). -/
def execLegData (v : Variant) (x : Bool) (s : State) : Result := showBytes [legacyData params v x] s

/-- LEG-PAT-GECCO (R86, R175). -/
def execLegPatGecco (x : Bool) (clkdiv : Nat) (s : State) : Result :=
  ifFormat (dividerOk clkdiv) (showBytes (stretch clkdiv (patGecco params x))) s

/-- LEG-PAT-ASIC (R87, R175). -/
def execLegPatAsic (x : Bool) (clkdiv : Nat) (s : State) : Result :=
  ifFormat (dividerOk clkdiv) (showBytes (stretch clkdiv (patAsic params x))) s

/-- LEG-TRAILER (R88). -/
def execLegTrailer (v : Variant) (clkdiv : Nat) (s : State) : Result :=
  ifFormat (dividerOk clkdiv) (showBytes (trailer params v clkdiv)) s

/-- SPI-HDR (R89). -/
def execSpiHdr (tag : BitVec 3) (id : BitVec 5) (s : State) : Result := showBytes [spiHdrLayout tag id] s

/-- SPI-BIT (R90). -/
def execSpiBit (x : Bool) (s : State) : Result := showBytes [spiBitByte params x] s

/-- SPI-LOAD (R90). -/
def execSpiLoad (s : State) : Result := showBytes [params.load] s

/-- SPI-EMPTY (R90). -/
def execSpiEmpty (s : State) : Result := showBytes [params.empty] s

/-- LEN-HDR (R91). -/
def execLenHdr (len : BitVec 16) (s : State) : Result :=
  showBytes [(lenHdrLayout len).1, (lenHdrLayout len).2] s

end Sys2Proof.Machine
end

