-- ==== Sys2Proof/Machine/Fsd.lean ====
section
/-! DEFINITION. The meanings of the FSD's operations (spec/40_frame_decoder.md R124 to R127). -/

namespace Sys2Proof.Machine

/-- CONFIG rev, fw, hdr (R124). -/
def execConfig (rev : Bool) (fw : BitVec 4) (hdr : BitVec 256) (s : State) : Result :=
  fsdOperation
    (fun s => unlessRefused (configRefusal s.fsd.mode fw) (fun s => .next (configure rev fw hdr s)) s) s

/-- CONFIG_CHIPS rev, fw, nchips (R125). -/
def execConfigChips (rev : Bool) (fw : BitVec 4) (nchips : BitVec 6) (s : State) : Result :=
  fsdOperation
    (fun s =>
      unlessRefused (configChipsRefusal s.fsd.mode fw nchips)
        (fun s => .next (configure rev fw (hset nchips.toNat fw.toNat) s)) s) s

/-- PUSH b (R126). -/
def execPush (b : Byte) (s : State) : Result :=
  fsdOperation
    (fun s =>
      match s.fsd.rev, s.fsd.fw, s.fsd.hdr with
      | some rev, some fw, some hdr =>
        .next { s with fsd := takeByte fw hdr (logicalByte rev b) s.fsd, report := .done }
      | _, _, _ => .next (raiseFsd .fsdUnconfigured s)) s

/-- END (R127). -/
def execEnd (s : State) : Result :=
  fsdOperation (fun s => .next { s with fsd := { s.fsd with buf := [], mode := .hunt }, report := .done }) s

end Sys2Proof.Machine
end

