-- ==== Sys2Proof/Machine/Run.lean ====
section
/-! DEFINITION. The meaning of RESET (spec/70_reset_and_hazards.md R250). -/

namespace Sys2Proof.Machine

/-- RESET (R250): every register takes its reset value, whatever the fault registers hold. The run it ends is
observed at that point (R254) and kept in `ended`, its mark REFUSED with it; the new run's mark starts clear
(R40, R44; log 4). The host's schedule goes on (log 3). -/
def execReset (s : State) : Result :=
  .next { State.reset with report := .done, ended := s.ended ++ [observe s], pending := s.pending }

end Sys2Proof.Machine
end

