-- ==== Sys2Proof/Machine/Wsq.lean ====
section
/-! DEFINITION. The meanings of the WSQ's operations (spec/41_waveform.md R172, R184, R186). -/

namespace Sys2Proof.Machine

/-- The registers of the WSQ after it has accepted a job (R172). -/
def acceptJob (job : Job) (w : Wsq) : Wsq :=
  let len := jobLength job
  { w with
    job := some job
    jobLen := some len
    pos := 0
    lenHi := match job.proto with | .legacy => some (lengthHeader len).1 | .spi => none
    lenLo := match job.proto with | .legacy => some (lengthHeader len).2 | .spi => none
    phase := phaseAfterGen len }

/-- GEN job (R172). -/
def execGen (job : Job) (s : State) : Result :=
  wsqOperation
    (fun s =>
      unlessRefused (genRefusal s.wsq.phase job)
        (fun s => .next { s with wsq := acceptJob job s.wsq, report := .done }) s) s

/-- `wave(job)[pos]`, in the direct form of R182; none past the end of the job. -/
def jobByte (p : Params) (job : Job) (pos : Nat) : Option Byte :=
  if pos < jobLength job then some (byteAt p job pos) else none

/-- The registers of the WSQ after it has emitted byte b of a job of length len (R184). -/
def emitByte (b : Byte) (len : Nat) (w : Wsq) : Wsq :=
  { w with out := w.out ++ [b], pos := w.pos + 1, phase := phaseAfterStep (w.pos + 1) len }

/-- STEP with the parameter set p (R184). -/
def stepWith (p : Params) (s : State) : Result :=
  wsqOperation
    (fun s =>
      match s.wsq.phase with
      | .idle => .fault .noStepIdle
      | .run =>
        match s.wsq.job, s.wsq.jobLen with
        | some job, some len =>
          match jobByte p job s.wsq.pos with
          | some b => .next { s with wsq := emitByte b len s.wsq, report := .done }
          | none => .fault .noJobByte
        | _, _ => .fault .noJobByte) s

/-- STEP (R184). -/
def execStep (s : State) : Result := stepWith params s

/-- LEN (R186). Both length registers are read, so either of them unset raises the fault (R22). -/
def execLen (s : State) : Result :=
  wsqOperation
    (fun s =>
      match s.wsq.lenHi, s.wsq.lenLo with
      | some hi, some lo => .next { s with report := .lenPair hi lo, lenReads := s.lenReads ++ [(hi, lo)] }
      | _, _ => .next (raiseWsq .wsqLenUnset s)) s

end Sys2Proof.Machine
end

