-- ==== Sys2Proof/Machine/Dispatch.lean ====
section
/-! DEFINITION. One arm per row of spec/opcode_table.json, each one direct call of its meaning. -/

namespace Sys2Proof.Machine

def exec (i : Instr) (s : State) : Host.Outcome State Fault Refusal :=
  match i with
  | .config rev fw hdr => Sys2Proof.Machine.execConfig rev fw hdr s
  | .configChips rev fw nchips => Sys2Proof.Machine.execConfigChips rev fw nchips s
  | .push b => Sys2Proof.Machine.execPush b s
  | .endBurst => Sys2Proof.Machine.execEnd s
  | .gen job => Sys2Proof.Machine.execGen job s
  | .step => Sys2Proof.Machine.execStep s
  | .len => Sys2Proof.Machine.execLen s
  | .reset => Sys2Proof.Machine.execReset s
  | .fmtHdr w0 w1 => Sys2Proof.Machine.execFmtHdr w0 w1 s
  | .fmtHit5 c p k r l t e m n => Sys2Proof.Machine.execFmtHit5 c p k r l t e m n s
  | .fmtHitN raw => Sys2Proof.Machine.execFmtHitN raw s
  | .legData v x => Sys2Proof.Machine.execLegData v x s
  | .legPatGecco x clkdiv => Sys2Proof.Machine.execLegPatGecco x clkdiv s
  | .legPatAsic x clkdiv => Sys2Proof.Machine.execLegPatAsic x clkdiv s
  | .legTrailer v clkdiv => Sys2Proof.Machine.execLegTrailer v clkdiv s
  | .spiHdr tag ident => Sys2Proof.Machine.execSpiHdr tag ident s
  | .spiBit x => Sys2Proof.Machine.execSpiBit x s
  | .spiLoad => Sys2Proof.Machine.execSpiLoad s
  | .spiEmpty => Sys2Proof.Machine.execSpiEmpty s
  | .lenHdr len => Sys2Proof.Machine.execLenHdr len s

end Sys2Proof.Machine
end

