-- ==== Sys2Proof/Machine/Step.lean ====
section
/-! DEFINITION. One step: the next operation of the host's schedule is issued and executed (log 3). -/

namespace Sys2Proof.Machine

/-- One step. The host issues one operation at a time (spec/10_state.md R20); with nothing to issue there is no
step (spec/70_reset_and_hazards.md R254). -/
def step (s : State) : Host.Outcome State Fault Refusal :=
  match issue s.wsq.phase s.pending with
  | .nothing => .fault .noOperation
  | .bad e => .refused (.undecodable e)
  | .run i rest => exec i { s with pending := rest }

/-- s with the raw bytes of a table word as the very next entry of the host's schedule (log 3). -/
def State.withFetchWord (s : State) (nbits w : Nat) : State :=
  { s with pending := .word (wordBytes nbits w) :: s.pending }

end Sys2Proof.Machine
end

