-- ==== Sys2Proof/Machine/Host.lean ====
section
/-! DEFINITION. The host's side: what it can see (spec/10_state.md R42), how a run ends (spec/70_reset_and_hazards.md
R254), the caller's clean test (spec/40_frame_decoder.md R133), sequences of operations, and the source's
decoder, to which the FSD is compared (R134). -/

namespace Sys2Proof.Machine

/-- What the host can observe of the block (R42). The length registers are seen through LEN. -/
structure HostView where
  frames : List FrameRecord
  out : List Byte
  phase : Phase
  lenHi : Option Byte
  lenLo : Option Byte
  fsdFault : Option FaultCode
  wsqFault : Option FaultCode
  deriving DecidableEq, Repr

/-- The host's view of a state (R42). -/
def hostView (s : State) : HostView where
  frames := s.fsd.frames
  out := s.wsq.out
  phase := s.wsq.phase
  lenHi := s.wsq.lenHi
  lenLo := s.wsq.lenLo
  fsdFault := s.fsd.fault
  wsqFault := s.wsq.fault

/-- A run ends well (R254): no fault, REFUSED clear, no byte left to emit, the last burst closed. -/
def endsWell (r : RunRecord) : Bool :=
  decide (r.fsdFault = none) && decide (r.wsqFault = none) && !r.refused && decide (r.phase = .idle)
    && decide (r.mode = .hunt)

/-- The caller's clean test (R133): VALID_PAYLOADS is a parameter of the caller (D13; log 12). R133 reads the fields
of a record and is silent on a record without fields (a frame width other than 5): that such a record is not clean is
the MODEL'S CHOICE (DESIGN CHOICE, log 15). -/
def clean (validPayloads : List (BitVec 3)) (r : FrameRecord) : Bool :=
  match r.fields with
  | some f => decide (f.chipId = 0) && validPayloads.contains f.payload
  | none => false

/-- Operations executed one after another, each on the state the one before left. -/
def execAll : List Instr → State → Result
  | [], s => .next s
  | i :: is, s =>
    match exec i s with
    | .next t => execAll is t
    | .fault r => .fault r
    | .refused r => .refused r

/-- The operations of `DECODE rev=r fw=w hdr=H [bytes]` (30_encoding.md R103). -/
def decodeOps (rev : Bool) (fw : BitVec 4) (hdr : BitVec 256) (raw : List Byte) : List Instr :=
  .config rev fw hdr :: (raw.map .push ++ [.endBurst])

/-- The operations of `GENERATE job` (30_encoding.md R103), with the number of STEPs written out:
41_waveform.md R185 says it is L(job). -/
def generateOps (job : Job) : List Instr := .gen job :: List.replicate (jobLength job) .step

/-- The scan of the source's decoder (R134) from some position on; the fuel is the number of bytes left, which
every turn of its loop makes smaller when fw is at least 1. -/
def refScan (fw : Nat) (hdr : BitVec 256) : Nat → List Byte → List (List Byte)
  | 0, _ => []
  | _ + 1, [] => []
  | fuel + 1, v :: rest =>
    if isHdr hdr v then
      if fw ≤ (v :: rest).length then (v :: rest).take fw :: refScan fw hdr fuel ((v :: rest).drop fw)
      else []
    else refScan fw hdr fuel rest

/-- The source's decoder (R134). -/
def refDecode (raw : List Byte) (rev : Bool) (fw : Nat) (hdr : BitVec 256) : List (List Byte) :=
  refScan fw hdr raw.length (raw.map (logicalByte rev))

end Sys2Proof.Machine
end

