-- ==== Sys2Proof/Safety.lean ====
section
/-! DEFINITION. What claims are stated in: the engine an instruction belongs to (spec/30_encoding.md R80), and the
invariants of every reachable state (spec/10_state.md R43). -/

namespace Sys2Proof.Machine

/-- The engine an instruction belongs to (R80). -/
inductive Engine where
  | fsd
  | wsq
  | both
  /-- a byte format: no operation of the block (R95; log 6) -/
  | format
  deriving DecidableEq, Repr

/-- The engine column of R80. -/
def engineOf : Row → Engine
  | .config => .fsd
  | .configChips => .fsd
  | .push => .fsd
  | .endBurst => .fsd
  | .gen => .wsq
  | .step => .wsq
  | .len => .wsq
  | .reset => .both
  | .fmtHdr => .format
  | .fmtHit5 => .format
  | .fmtHitN => .format
  | .legData => .format
  | .legPatGecco => .format
  | .legPatAsic => .format
  | .legTrailer => .format
  | .spiHdr => .format
  | .spiBit => .format
  | .spiLoad => .format
  | .spiEmpty => .format
  | .lenHdr => .format

/-- A record has a legal width, and fields exactly when the width is 5 (R31, 40_frame_decoder.md R129). -/
abbrev RecordOk (r : FrameRecord) : Prop :=
  1 ≤ r.raw.length ∧ r.raw.length ≤ fwMax ∧ r.fields = if r.raw.length = 5 then fdec5 r.raw else none

/-- The frame in progress lies under a loaded configuration: 1 to FW - 1 bytes, the first one a header (R43). -/
def collectOk (f : Fsd) : Bool :=
  match f.fw, f.hdr, f.buf with
  | some fw, some hdr, b :: rest => decide ((b :: rest).length ≤ fw.toNat - 1) && isHdr hdr b
  | _, _, _ => false

/-- The FSD's invariants (R43), with the legality of FSD.FW (R26) and the one fault the engine can hold (R221). -/
abbrev FsdInv (f : Fsd) : Prop :=
  (f.mode = .hunt ↔ f.buf = []) ∧
  (f.mode = .collect → collectOk f = true) ∧
  (f.rev.isSome = f.fw.isSome ∧ f.fw.isSome = f.hdr.isSome) ∧
  (∀ fw ∈ f.fw, fwLegal fw = true) ∧
  (∀ r ∈ f.frames, RecordOk r) ∧
  (f.fault = none ∨ (f.fault = some .fsdUnconfigured ∧ f.fw = none))

/-- What LEN_HI and LEN_LO hold under a job: the length header of a LEGACY job, unset for a SPI job (R37). -/
def headerOf : Option Job → Option Byte × Option Byte
  | none => (none, none)
  | some j =>
    match j.proto with
    | .legacy => (some (lengthHeader (jobLength j)).1, some (lengthHeader (jobLength j)).2)
    | .spi => (none, none)

/-- The WSQ's invariants (R43), with the legality of the job (41_waveform.md R171), J_LEN (R34), the length
header (R37) and the one fault the engine can hold (R221). -/
abbrev WsqInv (w : Wsq) : Prop :=
  w.jobLen = w.job.map jobLength ∧
  (∀ j ∈ w.job, jobLegal j = true) ∧
  (w.phase = .run → ∃ n ∈ w.jobLen, w.pos < n) ∧
  (w.phase = .idle → w.jobLen = some w.pos ∨ (w.pos = 0 ∧ w.jobLen = none)) ∧
  (w.lenHi, w.lenLo) = headerOf w.job ∧
  (w.fault = none ∨ (w.fault = some .wsqLenUnset ∧ w.lenHi = none))

/-- The invariants of the block (R43). -/
abbrev Inv (s : State) : Prop := FsdInv s.fsd ∧ WsqInv s.wsq

/-- REFUSED is set in the current run or was set in a run that a RESET ended (R40, 70_reset_and_hazards.md R250). -/
def everRefused (s : State) : Bool := s.refused || s.ended.any fun r => r.refused

/-- The bits of byte t of a job that carry data: the SIN bit of a legacy pattern byte, a whole SPI bit byte
(41_waveform.md R183). -/
def dataMask (p : Params) (job : Job) (t : Nat) : Byte :=
  match job.proto with
  | .legacy => if t < job.vec.length * patLen job.variant * job.clkdiv then p.sin job.variant else 0x00#8
  | .spi => if 1 ≤ t ∧ t ≤ job.vec.length then 0xFF#8 else 0x00#8

/-- The lines a variant drives (41_waveform.md R170): every legacy byte is 0 elsewhere (30_encoding.md R94). -/
def lineBits (p : Params) : Variant → Byte
  | .gecco => p.sin .gecco ||| p.ck1 .gecco ||| p.ld .gecco
  | .asic => p.sin .asic ||| p.ck1 .asic ||| p.ck2 ||| p.ld .asic

end Sys2Proof.Machine
end

