-- ==== Sys2Proof/Certificates/Slice0/Obligations.lean ====
section
/-! DEFINITION. The statements for the provers. Each docstring names the rules of spec/ it formalises; where a
clause is the model's own choice it names the log entry. A rule the spec itself marks "[derived: ...]" is an
inference of the spec's: the docstring then says so, and the statement's basis is 'derived'. The field `report` is
where an operation leaves what it gives back (LEN's pair) or reports (a refusal's code); that it holds `.done` or
`.faulted` after the others is the model's own (log 2), and a statement of a rule leaves it open (`∃ r`). -/

open Sys2Proof Sys2Proof.Machine

/-! ### Reset and invariants -/

/-- R44: every register's value after reset. (The model's own fields `report`, `lenReads`, `ended`, `pending` are not
in it: logs 2, 3, 4.) -/
def Obligations.ResetGivesEveryRegisterItsResetValue : Prop :=
  State.reset.fsd =
      { rev := none, fw := none, hdr := none, mode := .hunt, buf := [], frames := [], fault := none } ∧
    State.reset.wsq =
      { job := none, jobLen := none, pos := 0, phase := .idle, lenHi := none, lenLo := none, out := [],
        fault := none } ∧
    State.reset.refused = false

/-- R250: RESET is always enabled, whatever the fault registers hold, gives every register its reset value and starts
the new run's REFUSED mark clear. The clauses on `report`, `ended`, `lenReads` and `pending` are the model's
choice: logs 2, 3, 4. -/
def Obligations.ResetStartsANewRunFromEveryState : Prop :=
  ∀ s : State,
    exec .reset s =
      .next
        { fsd :=
            { rev := none, fw := none, hdr := none, mode := .hunt, buf := [], frames := [], fault := none }
          wsq :=
            { job := none, jobLen := none, pos := 0, phase := .idle, lenHi := none, lenLo := none, out := [],
              fault := none }
          refused := false
          report := .done
          lenReads := []
          ended :=
            s.ended ++
              [{ frames := s.fsd.frames, out := s.wsq.out, lenReads := s.lenReads, fsdFault := s.fsd.fault,
                 wsqFault := s.wsq.fault, refused := s.refused, mode := s.fsd.mode, phase := s.wsq.phase }]
          pending := s.pending }

/-- The invariants of R43 (the spec's own inference) hold at reset. -/
def Obligations.ResetMeetsTheInvariants : Prop := Inv State.reset

/-- Every step, whatever the host issues, keeps the invariants of R43 (the spec's own inference; its clause on emitted
records is `EmittedRecordHasTheWidthInForce`). -/
def Obligations.EveryStepKeepsTheInvariants : Prop :=
  ∀ s t : State, Inv s → step s = .next t → Inv t

/-- R170: the parameter set the machine runs with is a model of this block, whatever the free choices are (log 5). -/
def Obligations.TheParametersOfTheBlockAreLegal : Prop := LegalParams params

/-! ### The step -/

/-- Log 3: a step is the next entry of the host's schedule, executed. An operation, a text line that decodes to one
operation (R102), raw bytes that decode to one: each runs exactly that operation on the state with the entry taken
off. The two stops of the step itself: with nothing pending there is no step (R254), and a line or a word that stands
for no operation is refused, as a numeral outside an operand's type is at every width (R81: it "cannot be written
down"). -/
def Obligations.AStepRunsTheDecodedInstruction : Prop :=
  (∀ (s : State) (i : Instr) (rest : List HostItem),
    (s.pending = .op i :: rest → step s = exec i { s with pending := rest }) ∧
    (∀ text, s.pending = .line text :: rest → decodeLine text = .ok ⟨[i], false⟩ →
      step s = exec i { s with pending := rest }) ∧
    (∀ bytes, s.pending = .word bytes :: rest → decodeRaw bytes = .ok i →
      step s = exec i { s with pending := rest })) ∧
  (∀ s : State, s.pending = [] → step s = .fault .noOperation) ∧
  (∀ (s : State) (e : DecodeError) (rest : List HostItem),
    (∀ text, s.pending = .line text :: rest → decodeLine text = .error e → step s = .refused (.undecodable e)) ∧
    (∀ bytes, s.pending = .word bytes :: rest → decodeRaw bytes = .error e → step s = .refused (.undecodable e))) ∧
  (∀ (w n : Nat) (t : Text), readNat? t = some n → 2 ^ w ≤ n → readBits w t = .error (.outsideType t))

/-- R103: a line that stands for several operations puts the rest of them, and a DRAIN after them, next on the
schedule. DRAIN, as an entry or as the line `DRAIN` (no operation, then the draining), issues STEP while
WSQ.PHASE = RUN and stays; in IDLE it is used up, and the step is that of the rest of the schedule, whatever stands
there. A line that stands for no operation at all (a comment, `PUSHS []`) is passed over. -/
def Obligations.PseudoOperationsIssueTheirExpansion : Prop :=
  (∀ (s : State) (text : Text) (i : Instr) (more : List Instr) (rest : List HostItem),
    s.pending = .line text :: rest → decodeLine text = .ok ⟨i :: more, false⟩ →
      step s = exec i { s with pending := more.map .op ++ rest }) ∧
  (∀ (s : State) (text : Text) (i : Instr) (more : List Instr) (rest : List HostItem),
    s.pending = .line text :: rest → decodeLine text = .ok ⟨i :: more, true⟩ →
      step s = exec i { s with pending := more.map .op ++ .drain :: rest }) ∧
  (∀ (s : State) (rest : List HostItem), s.pending = .drain :: rest →
    (s.wsq.phase = .run → step s = exec .step s) ∧
    (s.wsq.phase = .idle → step s = step { s with pending := rest })) ∧
  (∀ (s : State) (text : Text) (rest : List HostItem),
    s.pending = .line text :: rest → decodeLine text = .ok ⟨[], true⟩ →
      (s.wsq.phase = .run → step s = exec .step { s with pending := .drain :: rest }) ∧
      (s.wsq.phase = .idle → step s = step { s with pending := rest })) ∧
  (∀ (s : State) (text : Text) (rest : List HostItem),
    s.pending = .line text :: rest → decodeLine text = .ok ⟨[], false⟩ →
      step s = step { s with pending := rest })

/-! ### Encoding -/

/-- Decoding the text line of a well-formed instruction gives it back, as one operation and as a line of a program,
for all twenty rows and every operand value (the text of R102; logs 6 and 7). -/
def Obligations.DecodingAnEncodedInstructionGivesItBack : Prop :=
  ∀ i : Instr, i.wellFormed = true →
    decodeInstr (encode i) = .ok i ∧ decodeLine (encode i) = .ok ⟨[i], false⟩

/-- The raw words of the rows to which the table gives bits (R82, R83, R91): no bit is dropped. -/
def Obligations.TableWordsGiveTheirFieldsBack : Prop :=
  (∀ i w, (encodeWord (.fmtHdr i w)).map decodeWord = some (.ok (.fmtHdr i w))) ∧
  (∀ c p k r l t e m n,
    (encodeWord (.fmtHit5 c p k r l t e m n)).map decodeWord = some (.ok (.fmtHit5 c p k r l t e m n))) ∧
  (∀ len, (encodeWord (.lenHdr len)).map decodeWord = some (.ok (.lenHdr len)))

/-- R102, spec/95_test_vectors.md: lines written out character by character stand for their operations. -/
def Obligations.LinesOfTheSpecDecodeToTheirOperations : Prop :=
  decodeInstr (chars ['C', 'O', 'N', 'F', 'I', 'G', '_', 'C', 'H', 'I', 'P', 'S', ' ', 'r', 'e', 'v', '=', '0', ' ',
      'f', 'w', '=', '5', ' ', 'n', 'c', 'h', 'i', 'p', 's', '=', '3']) = .ok (.configChips false 5 3) ∧
  decodeInstr (chars ['P', 'U', 'S', 'H', ' ', '0', 'x', '0', '4']) = .ok (.push 0x04) ∧
  decodeInstr (chars ['E', 'N', 'D']) = .ok .endBurst ∧
  decodeInstr (chars ['G', 'E', 'N', ' ', 's', 'p', 'i', ' ', 't', 'a', 'r', 'g', 'e', 't', '=', 'c', 'h', 'i', 'p', ':',
      '5', ' ', 'l', 'o', 'a', 'd', '=', '0', ' ', 'v', 'e', 'c', '=', 'b', '0', '1']) =
    .ok (.gen
      { proto := .spi, variant := .gecco, clkdiv := 0, load := false, bcast := false, chip := 5, nload := 0,
        vec := [false, true] }) ∧
  decodeLine (chars ['P', 'U', 'S', 'H', 'S', ' ', '[', '0', 'x', '0', '4', ',', ' ', '0', 'x', '8', '5', ']']) =
    .ok ⟨[.push 0x04, .push 0x85], false⟩ ∧
  decodeLine (chars ['D', 'R', 'A', 'I', 'N', ' ', ';', ' ', 'x']) = .ok ⟨[], true⟩

/-! ### Bits and fields of the FSD -/

/-- R120: bit i of bitrev8(b) is bit 7 - i of b, and the function is its own inverse. -/
def Obligations.BitReversalMirrorsTheByte : Prop :=
  ∀ b : Byte, (∀ i, i < 8 → (bitrev8 b).getLsbD i = b.getLsbD (7 - i)) ∧ bitrev8 (bitrev8 b) = b

/-- R92, the spec's own inference: the header value is exact, equals the OR of its parts and fits a byte. -/
def Obligations.HeaderValueIsExact : Prop :=
  ∀ i fw : Nat, i ≤ 31 → 1 ≤ fw → fw ≤ 8 →
    headerValue i fw = i * 8 + fw - 1 ∧ headerValue i fw = (i <<< 3) ||| (fw - 1) ∧ headerValue i fw ≤ 0xFF

/-- R123: HSET(nchips, fw) holds exactly the values of the formula for i = 0..nchips-1, nchips of them. -/
def Obligations.HeaderSetIsTheFormulaSet : Prop :=
  ∀ nchips fw : Nat, nchips ≤ 32 → 1 ≤ fw → fw ≤ 8 →
    (∀ v : Byte, isHdr (hset nchips fw) v = true ↔ ∃ i, i < nchips ∧ v.toNat = i * 8 + (fw - 1)) ∧
    ((List.range 256).filter (hset nchips fw).getLsbD).length = nchips

/-- R65, with the bit positions of R83: the fields of a 5-byte frame are the unsigned values of the bits named, and
the time over threshold comes from its two parts, the most significant first. -/
def Obligations.HitFieldsAreTheNamedBits : Prop :=
  ∀ b0 b1 b2 b3 b4 : Byte, ∃ f, fdec5 [b0, b1, b2, b3, b4] = some f ∧
    f.chipId.toNat = b0.toNat / 8 ∧ f.payload.toNat = b0.toNat % 8 ∧
    f.isColumn.toNat = b1.toNat / 128 ∧ f.location.toNat = b1.toNat % 64 ∧
    f.timestamp.toNat = b2.toNat ∧
    f.totMsb.toNat = b3.toNat % 16 ∧ f.totLsb.toNat = b4.toNat ∧
    f.timeOverThreshold.toNat = (b3.toNat % 16) * 256 + b4.toNat

/-- R98, of the record: the reserved bits take part in no field, and the record keeps them unchanged. -/
def Obligations.ReservedBitsEnterNoField : Prop :=
  ∀ b0 b1 b1' b2 b3 b3' b4 : Byte, b1 &&& 0xBF#8 = b1' &&& 0xBF#8 → b3 &&& 0x0F#8 = b3' &&& 0x0F#8 →
    fdec5 [b0, b1, b2, b3, b4] = fdec5 [b0, b1', b2, b3', b4] ∧
      (frameRecord 5 [b0, b1', b2, b3', b4]).raw = [b0, b1', b2, b3', b4]

/-! ### FSD operations -/

/-- R124, whole: what CONFIG refuses, in order, changing no register; and that it writes the three configuration
registers, any value of hdr among them, and nothing else. -/
def Obligations.ConfigLoadsOrRefuses : Prop :=
  ∀ (rev : Bool) (fw : BitVec 4) (hdr : BitVec 256) (s : State), s.fsd.fault = none →
    (s.fsd.mode = .collect →
      exec (.config rev fw hdr) s = .next { s with refused := true, report := .refusal .fsdConfigInFrame }) ∧
    (s.fsd.mode = .hunt → fw.toNat < 1 ∨ 8 < fw.toNat →
      exec (.config rev fw hdr) s = .next { s with refused := true, report := .refusal .fsdBadFw }) ∧
    (s.fsd.mode = .hunt → 1 ≤ fw.toNat → fw.toNat ≤ 8 →
      ∃ r, exec (.config rev fw hdr) s =
        .next { s with fsd := { s.fsd with rev := some rev, fw := some fw, hdr := some hdr }, report := r })

/-- R125, whole: what CONFIG_CHIPS refuses, in order; and that it writes the three configuration registers, the header
set being the values `(i << 3) + (fw - 1)` of the chips, and nothing else. -/
def Obligations.ConfigChipsLoadsOrRefuses : Prop :=
  ∀ (rev : Bool) (fw : BitVec 4) (nchips : BitVec 6) (s : State), s.fsd.fault = none →
    (s.fsd.mode = .collect →
      exec (.configChips rev fw nchips) s =
        .next { s with refused := true, report := .refusal .fsdConfigInFrame }) ∧
    (s.fsd.mode = .hunt → fw.toNat < 1 ∨ 8 < fw.toNat →
      exec (.configChips rev fw nchips) s = .next { s with refused := true, report := .refusal .fsdBadFw }) ∧
    (s.fsd.mode = .hunt → 1 ≤ fw.toNat → fw.toNat ≤ 8 → 32 < nchips.toNat →
      exec (.configChips rev fw nchips) s = .next { s with refused := true, report := .refusal .fsdBadNchips }) ∧
    (s.fsd.mode = .hunt → 1 ≤ fw.toNat → fw.toNat ≤ 8 → nchips.toNat ≤ 32 →
      ∃ (hdr : BitVec 256) (r : Report),
        (∀ v : Byte, hdr.getLsbD v.toNat = true ↔ ∃ i, i < nchips.toNat ∧ v.toNat = i * 8 + (fw.toNat - 1)) ∧
        exec (.configChips rev fw nchips) s =
          .next { s with fsd := { s.fsd with rev := some rev, fw := some fw, hdr := some hdr }, report := r })

/-- R126, whole: the fault when a configuration register is unset; in HUNT a non-header is dropped, a header starts a
frame, and is a frame of width 1; in COLLECT the byte is appended untested, and the byte that makes the buffer FW
long emits the frame (its record as R129 gives it). v is the logical byte (R121). -/
def Obligations.PushTakesOneByte : Prop :=
  ∀ (b : Byte) (s : State), s.fsd.fault = none →
    (s.fsd.rev = none ∨ s.fsd.fw = none ∨ s.fsd.hdr = none →
      ∃ r, exec (.push b) s =
        .next { s with fsd := { s.fsd with fault := some .fsdUnconfigured }, report := r }) ∧
    (∀ rev fw hdr, s.fsd.rev = some rev → s.fsd.fw = some fw → s.fsd.hdr = some hdr →
      ∀ v, v = (if rev = true then bitrev8 b else b) →
        (s.fsd.mode = .hunt → hdr.getLsbD v.toNat = false →
          ∃ r, exec (.push b) s = .next { s with report := r }) ∧
        (s.fsd.mode = .hunt → hdr.getLsbD v.toNat = true → fw.toNat = 1 →
          ∃ r, exec (.push b) s =
            .next { s with
              fsd := { s.fsd with buf := [], frames := s.fsd.frames ++ [{ raw := [v], fields := none }] }
              report := r }) ∧
        (s.fsd.mode = .hunt → hdr.getLsbD v.toNat = true → fw.toNat ≠ 1 →
          ∃ r, exec (.push b) s =
            .next { s with fsd := { s.fsd with buf := [v], mode := .collect }, report := r }) ∧
        (s.fsd.mode = .collect → s.fsd.buf.length + 1 ≠ fw.toNat →
          ∃ r, exec (.push b) s = .next { s with fsd := { s.fsd with buf := s.fsd.buf ++ [v] }, report := r }) ∧
        (s.fsd.mode = .collect → s.fsd.buf.length + 1 = fw.toNat →
          ∃ r, exec (.push b) s =
            .next { s with
              fsd :=
                { s.fsd with
                  buf := []
                  mode := .hunt
                  frames :=
                    s.fsd.frames ++
                      [{ raw := s.fsd.buf ++ [v]
                         fields := if fw.toNat = 5 then fdec5 (s.fsd.buf ++ [v]) else none }] }
              report := r }))

/-- R127, whole: END empties the buffer, returns to HUNT and changes nothing else, configured or not. -/
def Obligations.EndDiscardsThePartialFrame : Prop :=
  ∀ s : State, s.fsd.fault = none →
    ∃ r, exec .endBurst s = .next { s with fsd := { s.fsd with buf := [], mode := .hunt }, report := r }

/-- R136, the spec's own inference: in COLLECT a byte is a body byte whatever the header set: with any other header
set the same PUSH gives the same state but for that set. -/
def Obligations.AHeaderValueInABodyStartsNoFrame : Prop :=
  ∀ (b : Byte) (hdr hdr' : BitVec 256) (s t : State), s.fsd.mode = .collect → s.fsd.hdr = some hdr →
    exec (.push b) s = .next t →
      exec (.push b) { s with fsd := { s.fsd with hdr := some hdr' } } =
        .next { t with fsd := { t.fsd with hdr := some hdr' } }

/-- R43, the spec's own inference, with R129 and R31: a record that a PUSH emits has the width in force, and its first
byte was a header value at that time. -/
def Obligations.EmittedRecordHasTheWidthInForce : Prop :=
  ∀ (b : Byte) (s t : State) (r : FrameRecord), Inv s → exec (.push b) s = .next t →
    t.fsd.frames = s.fsd.frames ++ [r] →
      ∃ fw hdr v, s.fsd.fw = some fw ∧ s.fsd.hdr = some hdr ∧ r.raw.length = fw.toNat ∧
        r.raw.head? = some v ∧ hdr.getLsbD v.toNat = true ∧
        r.fields = if fw.toNat = 5 then fdec5 r.raw else none

/-- R134, the spec's own inference: the DECODE sequence extends FSD.FRAMES by exactly the frames of the source's
decoder, in order, and ends in HUNT with an empty buffer. -/
def Obligations.TheFsdEqualsTheSourcesDecoder : Prop :=
  ∀ (s : State) (rev : Bool) (fw : BitVec 4) (hdr : BitVec 256) (raw : List Byte),
    s.fsd.fault = none → s.fsd.mode = .hunt → 1 ≤ fw.toNat → fw.toNat ≤ 8 →
      ∃ t, execAll (decodeOps rev fw hdr raw) s = .next t ∧
        t.fsd.frames =
          s.fsd.frames ++
            (refDecode raw rev fw.toNat hdr).map
              (fun frame => FrameRecord.mk frame (if fw.toNat = 5 then fdec5 frame else none)) ∧
        t.fsd.mode = .hunt ∧ t.fsd.buf = []

/-- R128, R127: each burst is decoded on its own. Two bursts under one configuration emit the frames of the
source's decoder on the first, then those on the second: no frame continues across END. -/
def Obligations.NoFrameContinuesAcrossABurst : Prop :=
  ∀ (s : State) (rev : Bool) (fw : BitVec 4) (hdr : BitVec 256) (a b : List Byte),
    s.fsd.fault = none → s.fsd.mode = .hunt → 1 ≤ fw.toNat → fw.toNat ≤ 8 →
      ∃ t, execAll (.config rev fw hdr :: (a.map .push ++ .endBurst :: (b.map .push ++ [.endBurst]))) s = .next t ∧
        t.fsd.frames =
          s.fsd.frames ++
            (refDecode a rev fw.toNat hdr ++ refDecode b rev fw.toNat hdr).map
              (fun frame => FrameRecord.mk frame (if fw.toNat = 5 then fdec5 frame else none)) ∧
        t.fsd.mode = .hunt ∧ t.fsd.buf = []

/-- R127, R42: a partial frame that END discards leaves no trace that the host can see; nor does a byte of it while
it is being collected. -/
def Obligations.APartialFrameIsInvisible : Prop :=
  (∀ s t : State, exec .endBurst s = .next t → hostView t = hostView s) ∧
  (∀ (b : Byte) (s t : State), exec (.push b) s = .next t → t.fsd.fault = none → t.fsd.mode = .collect →
    hostView t = hostView s)

/-- R266, the spec's own inference (90_conflicts.md C1): two 5-byte frames around junk that holds no header value are
found, and nothing else, on a link of either bit order. Headers and junk go by their logical values (R121, R122), and
the records hold the logical bytes. -/
def Obligations.TwoFramesAroundHeaderFreeJunk : Prop :=
  ∀ (s : State) (rev : Bool) (hdr : BitVec 256) (h g : Byte) (f1 f2 f3 f4 g1 g2 g3 g4 : Byte) (junk : List Byte),
    s.fsd.fault = none → s.fsd.mode = .hunt →
    isHdr hdr (logicalByte rev h) = true → isHdr hdr (logicalByte rev g) = true →
    (∀ x ∈ junk, isHdr hdr (logicalByte rev x) = false) →
      ∃ t, execAll (decodeOps rev 5 hdr ([h, f1, f2, f3, f4] ++ junk ++ [g, g1, g2, g3, g4])) s = .next t ∧
        t.fsd.frames =
          s.fsd.frames ++
            [{ raw := [h, f1, f2, f3, f4].map (logicalByte rev)
               fields := fdec5 ([h, f1, f2, f3, f4].map (logicalByte rev)) },
             { raw := [g, g1, g2, g3, g4].map (logicalByte rev)
               fields := fdec5 ([g, g1, g2, g3, g4].map (logicalByte rev)) }]

/-- R138, the spec's own inference: under a header set built by CONFIG_CHIPS every emitted 5-byte frame has payload 4
= FW - 1 and the chip id of the header value that started it. -/
def Obligations.ChipHeadersGivePayloadFour : Prop :=
  ∀ (s t : State) (rev : Bool) (nchips : BitVec 6) (raw : List Byte),
    s.fsd.fault = none → s.fsd.mode = .hunt → nchips.toNat ≤ 32 →
    execAll (.configChips rev 5 nchips :: raw.map .push) s = .next t →
      ∃ new, t.fsd.frames = s.fsd.frames ++ new ∧
        ∀ r ∈ new, ∃ f i, r.fields = some f ∧ i < nchips.toNat ∧ r.raw.head? = some (BitVec.ofNat 8 (i * 8 + 4)) ∧
          f.chipId.toNat = i ∧ f.payload.toNat = 4

/-! ### The waveform -/

/-- R173, the spec's own inference: the job length. -/
def Obligations.JobLengthIsTheFormula : Prop :=
  ∀ job : Job,
    (job.proto = .legacy → job.variant = .gecco →
      jobLength job = (job.vec.length * 3 + if job.load = true then 20 else 0) * job.clkdiv) ∧
    (job.proto = .legacy → job.variant = .asic →
      jobLength job = (job.vec.length * 5 + if job.load = true then 30 else 0) * job.clkdiv) ∧
    (job.proto = .spi → jobLength job = 1 + job.vec.length + if job.load = true then 2 * job.nload else 0)

/-- R173, the spec's own inference: a legal job's wave has exactly the job length, in every legal instance. -/
def Obligations.TheWaveHasTheJobLength : Prop :=
  ∀ (p : Params) (job : Job), LegalParams p → jobLegal job = true → (wave p job).length = jobLength job

/-- R182, the spec's own inference: the byte at an index, computed from the sequencer's counters, is the byte of the
wave. -/
def Obligations.TheByteAtAnIndexIsTheWaves : Prop :=
  ∀ (p : Params) (job : Job) (t : Nat), LegalParams p → jobLegal job = true → t < jobLength job →
    (wave p job)[t]? = some (byteAt p job t)

/-- R88: the load trailer of a legal instance (R170) is T_v*C bytes, T being 20 for GECCO and 30 for ASIC, 10*C of
them high, with at least one low byte on each side. -/
def Obligations.TheLoadPulseIsBracketedByLowBytes : Prop :=
  ∀ (p : Params) (v : Variant) (c : Nat), LegalParams p → 1 ≤ c →
    ∃ pre post, 1 ≤ pre ∧ 1 ≤ post ∧ pre = p.loadPre v c ∧
      pre + 10 * c + post = (if v = .gecco then 20 else 30) * c ∧
      trailer p v c = List.replicate pre 0x00#8 ++ List.replicate (10 * c) (p.ld v) ++ List.replicate post 0x00#8

/-- R94, the spec's own inference from R85 to R87: in a legal instance a clock line sets exactly one more bit than the
data byte, and every byte of a LEGACY job is 0 outside the variant's lines. -/
def Obligations.LegacyBytesDriveOnlyTheLines : Prop :=
  ∀ (p : Params) (v : Variant), LegalParams p →
    (∀ x : Bool, legacyData p v x &&& p.ck1 v = 0#8 ∧ oneLine ((legacyData p v x ||| p.ck1 v) ^^^ legacyData p v x)) ∧
    (∀ x : Bool, legacyData p .asic x &&& p.ck2 = 0#8 ∧
      oneLine ((legacyData p .asic x ||| p.ck2) ^^^ legacyData p .asic x)) ∧
    (∀ job : Job, job.proto = .legacy → job.variant = v → ∀ b ∈ wave p job, b &&& ~~~ lineBits p v = 0#8)

/-- R180, R89: the target header of a SPI job, and that a broadcast and a routed header always differ. -/
def Obligations.SpiTargetHeadersDiffer : Prop :=
  ∀ (p : Params) (job job' : Job), LegalParams p → job.bcast = true → job'.bcast = false → job'.chip.toNat ≤ 31 →
    (spiTargetHdr p job).toNat = p.tagBcast.toNat * 32 + p.bcastId.toNat ∧
    (spiTargetHdr p job').toNat = p.tagRouted.toNat * 32 + job'.chip.toNat ∧
    spiTargetHdr p job ≠ spiTargetHdr p job'

/-- R178, R179: the sequence of a SPI job, one byte a bit, whatever clkdiv and variant are. -/
def Obligations.ASpiJobIsItsSequence : Prop :=
  ∀ (p : Params) (job : Job), job.proto = .spi →
    wave p job =
        spiTargetHdr p job :: (job.vec.map (fun x => if x = true then p.bit1 else p.bit0) ++
          if job.load = true then List.replicate job.nload p.load ++ List.replicate job.nload p.empty else []) ∧
      ∀ (c : Nat) (v : Variant),
        wave p { job with clkdiv := c, variant := v } = wave p job ∧
          jobLength { job with clkdiv := c, variant := v } = jobLength job

/-- R183, the spec's own inference: two jobs with equal operands and equal vector length have the same length and
differ only in the bits that carry data. -/
def Obligations.JobsOfEqualShapeDifferOnlyInData : Prop :=
  ∀ (p : Params) (job : Job) (vec : List Bool), LegalParams p → jobLegal job = true →
    vec.length = job.vec.length →
      jobLength { job with vec := vec } = jobLength job ∧
      (wave p { job with vec := vec }).length = (wave p job).length ∧
      ∀ t, t < jobLength job →
        byteAt p { job with vec := vec } t &&& ~~~ dataMask p job t = byteAt p job t &&& ~~~ dataMask p job t

/-- R91, R68: the length header is big-endian. -/
def Obligations.TheLengthHeaderIsBigEndian : Prop :=
  ∀ len : Nat, len ≤ 0xFFFF →
    (lengthHeader len).1.toNat = len / 256 ∧ (lengthHeader len).2.toNat = len % 256

/-! ### WSQ operations -/

/-- R172, whole: what GEN refuses, in order, changing no register; and that GEN of any other job in IDLE latches it,
its length (R173) and its length header, and starts it unless it is empty. -/
def Obligations.GenAcceptsOrRefuses : Prop :=
  ∀ (job : Job) (s : State), s.wsq.fault = none →
    (s.wsq.phase = .run →
      exec (.gen job) s = .next { s with refused := true, report := .refusal .wsqBusy }) ∧
    (s.wsq.phase = .idle → job.proto = .legacy → job.clkdiv = 0 →
      exec (.gen job) s = .next { s with refused := true, report := .refusal .wsqBadClkdiv }) ∧
    (s.wsq.phase = .idle → job.proto = .spi → job.bcast = false → 31 < job.chip.toNat →
      exec (.gen job) s = .next { s with refused := true, report := .refusal .wsqBadChipid }) ∧
    (s.wsq.phase = .idle → job.proto = .legacy → job.clkdiv ≠ 0 → 0xFFFF < jobLength job →
      exec (.gen job) s = .next { s with refused := true, report := .refusal .wsqLenOverflow }) ∧
    (s.wsq.phase = .idle → job.proto = .legacy → job.clkdiv ≠ 0 → jobLength job ≤ 0xFFFF →
      ∃ r, exec (.gen job) s =
        .next { s with
          wsq :=
            { s.wsq with
              job := some job
              jobLen := some (jobLength job)
              pos := 0
              lenHi := some (BitVec.ofNat 8 (jobLength job / 256))
              lenLo := some (BitVec.ofNat 8 (jobLength job % 256))
              phase := if jobLength job = 0 then .idle else .run }
          report := r }) ∧
    (s.wsq.phase = .idle → job.proto = .spi → job.bcast = true ∨ job.chip.toNat ≤ 31 →
      ∃ r, exec (.gen job) s =
        .next { s with
          wsq :=
            { s.wsq with
              job := some job, jobLen := some (jobLength job), pos := 0, lenHi := none, lenLo := none, phase := .run }
          report := r })

/-- R171: which jobs are legal, and that GEN refuses an illegal one in every state in which it has a step. -/
def Obligations.LegalJobsAreTheRulesJobs : Prop :=
  ∀ job : Job,
    (jobLegal job = true ↔
      (job.proto = .legacy → 1 ≤ job.clkdiv ∧ jobLength job ≤ 0xFFFF) ∧
      (job.proto = .spi → job.bcast = false → job.chip.toNat ≤ 31)) ∧
    (jobLegal job = false → ∀ s : State, s.wsq.fault = none →
      ∃ c, exec (.gen job) s = .next { s with refused := true, report := .refusal c })

/-- R184, whole: STEP in RUN emits the byte of the wave at WSQ.POS and goes to IDLE with the last one; in IDLE it has
no step. -/
def Obligations.StepEmitsTheNextByte : Prop :=
  (∀ (job : Job) (len : Nat) (b : Byte) (s : State), s.wsq.fault = none → s.wsq.phase = .run →
    s.wsq.job = some job → s.wsq.jobLen = some len → jobLegal job = true →
    (wave params job)[s.wsq.pos]? = some b →
      ∃ r, exec .step s =
        .next { s with
          wsq :=
            { s.wsq with
              out := s.wsq.out ++ [b]
              pos := s.wsq.pos + 1
              phase := if s.wsq.pos + 1 = len then .idle else .run }
          report := r }) ∧
  (∀ s : State, s.wsq.fault = none → s.wsq.phase = .idle → exec .step s = .fault .noStepIdle)

/-- R186, whole: LEN gives back the pair of the length registers and writes no register, or raises WSQ_LEN_UNSET when
LEN_HI is unset. (What the model's own `lenReads` then holds is log 2.) -/
def Obligations.LenReadsTheLengthHeader : Prop :=
  (∀ (hi lo : Byte) (s : State), s.wsq.fault = none → s.wsq.lenHi = some hi → s.wsq.lenLo = some lo →
    ∃ ls, exec .len s = .next { s with report := .lenPair hi lo, lenReads := ls }) ∧
  (∀ s : State, s.wsq.fault = none → s.wsq.lenHi = none →
    ∃ r, exec .len s = .next { s with wsq := { s.wsq with fault := some .wsqLenUnset }, report := r })

/-- R261, the spec's own inference: LEN under a LEGACY job gives the number of bytes of that job's wave. -/
def Obligations.TheLengthHeaderAgreesWithTheBytes : Prop :=
  ∀ (s : State) (job : Job), Inv s → s.wsq.fault = none → s.wsq.job = some job → job.proto = .legacy →
    ∃ hi lo, exec .len s = .next { s with report := .lenPair hi lo, lenReads := s.lenReads ++ [(hi, lo)] } ∧
      hi.toNat * 256 + lo.toNat = (wave params job).length

/-- R185, the spec's own inference: GEN job and exactly L(job) STEPs extend WSQ.OUT by exactly wave(job), and leave
the WSQ in IDLE. -/
def Obligations.TheWsqEqualsTheSourcesGenerator : Prop :=
  ∀ (s : State) (job : Job), s.wsq.fault = none → s.wsq.phase = .idle → jobLegal job = true →
    ∃ t, execAll (generateOps job) s = .next t ∧ t.wsq.out = s.wsq.out ++ wave params job ∧
      t.wsq.phase = .idle ∧ t.wsq.pos = jobLength job ∧ t.wsq.job = some job ∧ t.fsd = s.fsd

/-- R103, R185: GENERATE as the schedule runs it: GEN, then DRAIN for exactly L(job) steps; the DRAIN is then used up
by the next issue (log 3). -/
def Obligations.DrainEmitsTheWholeJob : Prop :=
  ∀ (s : State) (job : Job) (rest : List HostItem), s.pending = .op (.gen job) :: .drain :: rest →
    s.wsq.fault = none → s.wsq.phase = .idle → jobLegal job = true →
      ∃ t, Host.Core.run core (1 + jobLength job) s = .next t ∧ t.wsq.out = s.wsq.out ++ wave params job ∧
        t.wsq.phase = .idle ∧ t.pending = .drain :: rest ∧ issue t.wsq.phase t.pending = issue .idle rest

/-! ### Whole-machine rules -/

/-- R220: the ways an instruction ends. In a state that meets the invariants it has no step exactly for STEP in IDLE
or an engine whose fault register is set, and only an ill-formed format row is without meaning (log 6): no
operation of the block ever is. -/
def Obligations.AnOperationStopsOnlyWhereThereIsNoStep : Prop :=
  ∀ (i : Instr) (s : State), Inv s →
    (∀ f, exec i s = .fault f →
      (f = .noStepIdle ∧ i = .step ∧ s.wsq.phase = .idle) ∨
      (f = .noStepFsdFaulted ∧ engineOf i.row = .fsd ∧ s.fsd.fault ≠ none) ∨
      (f = .noStepWsqFaulted ∧ engineOf i.row = .wsq ∧ s.wsq.fault ≠ none)) ∧
    (∀ r, exec i s = .refused r → r = .noSuchFormat ∧ i.wellFormed = false)

/-- R223, R230: while an engine's fault register is set, no operation of that engine has a step, and no other
operation but RESET changes a register of it. -/
def Obligations.AFaultedEngineHasNoStep : Prop :=
  ∀ (i : Instr) (s : State),
    (s.fsd.fault ≠ none → engineOf i.row = .fsd → exec i s = .fault .noStepFsdFaulted) ∧
    (s.wsq.fault ≠ none → engineOf i.row = .wsq → exec i s = .fault .noStepWsqFaulted) ∧
    (∀ t, exec i s = .next t → i ≠ .reset →
      (s.fsd.fault ≠ none → t.fsd = s.fsd) ∧ (s.wsq.fault ≠ none → t.wsq = s.wsq))

/-- R20, R73: no operation of one engine writes the state of the other; a byte format writes neither (log 6). -/
def Obligations.AnOperationWritesOnlyItsOwnEngine : Prop :=
  ∀ (i : Instr) (s t : State), exec i s = .next t →
    (engineOf i.row = .fsd → t.wsq = s.wsq) ∧ (engineOf i.row = .wsq → t.fsd = s.fsd) ∧
    (engineOf i.row = .format → t.fsd = s.fsd ∧ t.wsq = s.wsq) ∧
    (i ≠ .reset → t.pending = s.pending ∧ t.ended = s.ended)

/-- R20, R73: no operation of one engine reads the state of the other: on two states that agree on its own engine it
does the same to that engine and gives the same back. -/
def Obligations.AnOperationReadsOnlyItsOwnEngine : Prop :=
  ∀ (i : Instr) (s s' t : State), exec i s = .next t →
    (engineOf i.row = .fsd → s'.fsd = s.fsd →
      ∃ t', exec i s' = .next t' ∧ t'.fsd = t.fsd ∧ t'.report = t.report) ∧
    (engineOf i.row = .wsq → s'.wsq = s.wsq →
      ∃ t', exec i s' = .next t' ∧ t'.wsq = t.wsq ∧ t'.report = t.report)

/-- R224: a refusal sets REFUSED and changes no register of either engine. Which codes each operation reports (R222).
That the report names the code is the model's choice: log 2. -/
def Obligations.ARefusalChangesNoRegister : Prop :=
  ∀ (i : Instr) (s t : State) (c : RefusalCode), exec i s = .next t → t.report = .refusal c →
    t = { s with refused := true, report := .refusal c } ∧
    (c = .fsdConfigInFrame ∨ c = .fsdBadFw → i.row = .config ∨ i.row = .configChips) ∧
    (c = .fsdBadNchips → i.row = .configChips) ∧
    (c = .wsqBusy ∨ c = .wsqBadClkdiv ∨ c = .wsqBadChipid ∨ c = .wsqLenOverflow → i.row = .gen)

/-- R221, R223: a fault writes its engine's fault register and nothing else; only PUSH and LEN raise one. That the
report names the code is the model's choice: log 2. -/
def Obligations.AFaultWritesOnlyTheFaultRegister : Prop :=
  ∀ (i : Instr) (s t : State) (c : FaultCode), exec i s = .next t → t.report = .faulted c →
    (c = .fsdUnconfigured ∧ i.row = .push ∧
      t = { s with fsd := { s.fsd with fault := some .fsdUnconfigured }, report := .faulted .fsdUnconfigured }) ∨
    (c = .wsqLenUnset ∧ i = .len ∧
      t = { s with wsq := { s.wsq with fault := some .wsqLenUnset }, report := .faulted .wsqLenUnset })

/-- Log 2, the model's own: what `report` says after each kind of instruction. -/
def Obligations.TheReportSaysHowTheOperationEnded : Prop :=
  ∀ (i : Instr) (s t : State), exec i s = .next t →
    (engineOf i.row = .format → (∃ bs, t.report = .bytes bs) ∨ ∃ r, t.report = .record r) ∧
    (i = .len → (∃ hi lo, t.report = .lenPair hi lo ∧ s.wsq.lenHi = some hi ∧ s.wsq.lenLo = some lo) ∨
      t.report = .faulted .wsqLenUnset) ∧
    (engineOf i.row ≠ .format → i ≠ .len →
      t.report = .done ∨ (∃ c, t.report = .refusal c) ∨ t.report = .faulted .fsdUnconfigured)

/-- R40: no operation clears REFUSED inside a run, and RESET does not hide it: the mark of the run it ends is kept
(log 4). -/
def Obligations.TheRefusedMarkIsNeverHidden : Prop :=
  ∀ (i : Instr) (s t : State), exec i s = .next t →
    (i ≠ .reset → s.refused = true → t.refused = true) ∧ (everRefused s = true → everRefused t = true)

/-- R223, R224, R254: a run with a fault or a refusal in it never ends well, whatever follows inside the run. -/
def Obligations.AFaultedOrRefusedRunNeverEndsWell : Prop :=
  ∀ (is : List Instr) (s t : State), (∀ i ∈ is, i ≠ .reset) →
    (s.fsd.fault ≠ none ∨ s.wsq.fault ≠ none ∨ s.refused = true) → execAll is s = .next t →
      endsWell (observe t) = false

/-- R30, R38: FSD.FRAMES and WSQ.OUT are append-only inside a run; only a PUSH appends a frame, at most one, and only
a STEP appends a byte, exactly one. -/
def Obligations.TheOutputsAreAppendOnly : Prop :=
  ∀ (i : Instr) (s t : State), exec i s = .next t → i ≠ .reset →
    (t.fsd.frames = s.fsd.frames ∨ (i.row = .push ∧ ∃ r, t.fsd.frames = s.fsd.frames ++ [r])) ∧
    ((i ≠ .step ∧ t.wsq.out = s.wsq.out) ∨ (i = .step ∧ ∃ b, t.wsq.out = s.wsq.out ++ [b]))

/-- R24, R75: only CONFIG and CONFIG_CHIPS write the configuration, all three registers together, and never while a
frame is in progress. -/
def Obligations.TheConfigurationChangesOnlyInHunt : Prop :=
  ∀ (i : Instr) (s t : State), exec i s = .next t → i ≠ .reset →
    (t.fsd.rev = s.fsd.rev ∧ t.fsd.fw = s.fsd.fw ∧ t.fsd.hdr = s.fsd.hdr) ∨
    ((i.row = .config ∨ i.row = .configChips) ∧ s.fsd.mode = .hunt ∧ t.fsd.rev ≠ none ∧ t.fsd.fw ≠ none ∧
      t.fsd.hdr ≠ none)

/-- R187, R260, R172: a running job can be neither replaced nor cut short: in RUN every operation but RESET leaves the
job, its length and its length header alone, and only STEP moves WSQ.POS, by one. -/
def Obligations.ARunningJobIsNeverCutShort : Prop :=
  ∀ (i : Instr) (s t : State), exec i s = .next t → i ≠ .reset → s.wsq.phase = .run →
    t.wsq.job = s.wsq.job ∧ t.wsq.jobLen = s.wsq.jobLen ∧ t.wsq.lenHi = s.wsq.lenHi ∧ t.wsq.lenLo = s.wsq.lenLo ∧
    ((i ≠ .step ∧ t.wsq.pos = s.wsq.pos ∧ t.wsq.phase = .run) ∨
      (i = .step ∧ t.wsq.pos = s.wsq.pos + 1 ∧ (t.wsq.phase = .idle ↔ s.wsq.jobLen = some t.wsq.pos)))

/-! ### Format rows (log 6: they are data; the model builds them for the host) -/

/-- R82, R83, R84: the frame formats. FMT-HIT5 gives a record whose fields are the fields given; FMT-HITN a record
without fields, and stops where no such format exists (log 6). -/
def Obligations.FrameFormatsBuildTheirBytes : Prop :=
  ∀ s : State,
    (∀ (i : BitVec 5) (w : BitVec 3), ∃ h : Byte, h.toNat = i.toNat * 8 + w.toNat ∧
      exec (.fmtHdr i w) s = .next { s with report := .bytes [h] }) ∧
    (∀ (c : BitVec 5) (p : BitVec 3) (k r : BitVec 1) (l : BitVec 6) (t : BitVec 8) (e m : BitVec 4) (n : BitVec 8),
      ∃ b0 b1 b3 : Byte, b0.toNat = c.toNat * 8 + p.toNat ∧
        b1.toNat = k.toNat * 128 + r.toNat * 64 + l.toNat ∧ b3.toNat = e.toNat * 16 + m.toNat ∧
        exec (.fmtHit5 c p k r l t e m n) s =
          .next { s with
            report :=
              .record
                { raw := [b0, b1, t, b3, n]
                  fields :=
                    some
                      { chipId := c, payload := p, isColumn := k, location := l, timestamp := t, totMsb := m,
                        totLsb := n, timeOverThreshold := BitVec.ofNat 12 (m.toNat * 256 + n.toNat) } } }) ∧
    (∀ raw : List Byte, 1 ≤ raw.length → raw.length ≤ 8 → raw.length ≠ 5 →
      exec (.fmtHitN raw) s = .next { s with report := .record { raw := raw, fields := none } }) ∧
    (∀ raw : List Byte, raw.length < 1 ∨ 8 < raw.length ∨ raw.length = 5 →
      exec (.fmtHitN raw) s = .refused .noSuchFormat)

/-- R85, R86, R87, R88, R175: the legacy formats, for a clock divider of 1 or more; with a divider of 0 there is no
such format (log 6). d is the data byte of R85. -/
def Obligations.LegacyFormatsBuildTheirBytes : Prop :=
  ∀ s : State,
    (∀ (v : Variant) (x : Bool),
      exec (.legData v x) s = .next { s with report := .bytes [if x = true then params.sin v else 0x00#8] }) ∧
    (∀ (x : Bool) (c : Nat) (d : Byte), 1 ≤ c → d = (if x = true then params.sin .gecco else 0x00#8) →
      exec (.legPatGecco x c) s =
        .next { s with
          report :=
            .bytes
              (List.replicate c d ++ List.replicate c (d ||| params.ck1 .gecco) ++ List.replicate c d) }) ∧
    (∀ (x : Bool) (c : Nat) (d : Byte), 1 ≤ c → d = (if x = true then params.sin .asic else 0x00#8) →
      exec (.legPatAsic x c) s =
        .next { s with
          report :=
            .bytes
              (List.replicate c d ++ List.replicate c (d ||| params.ck1 .asic) ++ List.replicate c d ++
                List.replicate c (d ||| params.ck2) ++ List.replicate c d) }) ∧
    (∀ (v : Variant) (c : Nat), 1 ≤ c →
      exec (.legTrailer v c) s =
        .next { s with
          report :=
            .bytes
              (List.replicate (params.loadPre v c) 0x00#8 ++ List.replicate (10 * c) (params.ld v) ++
                List.replicate ((trailerUnits v - 10) * c - params.loadPre v c) 0x00#8) }) ∧
    (∀ (v : Variant) (x : Bool),
      exec (.legPatGecco x 0) s = .refused .noSuchFormat ∧ exec (.legPatAsic x 0) s = .refused .noSuchFormat ∧
        exec (.legTrailer v 0) s = .refused .noSuchFormat)

/-- R89, R90, R91: the SPI formats and the length header. -/
def Obligations.SpiAndLengthFormatsBuildTheirBytes : Prop :=
  ∀ s : State,
    (∀ (tag : BitVec 3) (id : BitVec 5), ∃ h : Byte, h.toNat = tag.toNat * 32 + id.toNat ∧
      exec (.spiHdr tag id) s = .next { s with report := .bytes [h] }) ∧
    (∀ x : Bool,
      exec (.spiBit x) s = .next { s with report := .bytes [if x = true then params.bit1 else params.bit0] }) ∧
    exec .spiLoad s = .next { s with report := .bytes [params.load] } ∧
    exec .spiEmpty s = .next { s with report := .bytes [params.empty] } ∧
    (∀ len : BitVec 16, ∃ hi lo : Byte, hi.toNat = len.toNat / 256 ∧ lo.toNat = len.toNat % 256 ∧
      exec (.lenHdr len) s = .next { s with report := .bytes [hi, lo] })

/-! ### Operands outside their types -/

/-- R81: an operand value outside its type cannot be written down. The line of an operation with such a numeral, of
whatever size, in any of its operands of a bounded width decodes to nothing, and names the operand; it is never cut
to the type. -/
def Obligations.AnOperandOutsideItsTypeIsNoOperation : Prop :=
  (∀ n, 256 ≤ n →
    decodeInstr (joinWith 0x20#8 [Row.push.name, natText n]) = .error (.outsideType (natText n))) ∧
  (∀ n, 2 ≤ n → ∀ fw hdr,
    decodeInstr (joinWith 0x20#8
        [Row.config.name, fieldText kRev (natText n), fieldText kFw (natText fw), fieldText kHdr (setText hdr)]) =
      .error (.outsideType (natText n))) ∧
  (∀ n, 16 ≤ n → ∀ rev hdr,
    decodeInstr (joinWith 0x20#8
        [Row.config.name, fieldText kRev (boolText rev), fieldText kFw (natText n), fieldText kHdr (setText hdr)]) =
      .error (.outsideType (natText n))) ∧
  (∀ n, 256 ≤ n → ∀ (rev : Bool) (fw : BitVec 4),
    decodeInstr (joinWith 0x20#8
        [Row.config.name, fieldText kRev (boolText rev), fieldText kFw (natText fw.toNat),
          fieldText kHdr (0x7B#8 :: (natText n ++ [0x7D#8]))]) =
      .error (.outsideType (natText n))) ∧
  (∀ n, 2 ≤ n → ∀ fw nchips,
    decodeInstr (joinWith 0x20#8
        [Row.configChips.name, fieldText kRev (natText n), fieldText kFw (natText fw),
          fieldText kNchips (natText nchips)]) =
      .error (.outsideType (natText n))) ∧
  (∀ n, 16 ≤ n → ∀ rev nchips,
    decodeInstr (joinWith 0x20#8
        [Row.configChips.name, fieldText kRev (boolText rev), fieldText kFw (natText n),
          fieldText kNchips (natText nchips)]) =
      .error (.outsideType (natText n))) ∧
  (∀ n, 64 ≤ n → ∀ (rev : Bool) (fw : BitVec 4),
    decodeInstr (joinWith 0x20#8
        [Row.configChips.name, fieldText kRev (boolText rev), fieldText kFw (natText fw.toNat),
          fieldText kNchips (natText n)]) =
      .error (.outsideType (natText n))) ∧
  (∀ n, 64 ≤ n → ∀ load vec,
    decodeInstr (joinWith 0x20#8
        [Row.gen.name, kSpi, fieldText kTarget (kChip ++ 0x3A#8 :: natText n), fieldText kLoad (boolText load),
          fieldText kVec (vecText vec)]) =
      .error (.outsideType (natText n))) ∧
  (∀ n, 2 ≤ n → ∀ (v : Variant) (clkdiv : Nat) (vec : List Bool),
    decodeInstr (joinWith 0x20#8
        [Row.gen.name, kLegacy, fieldText kVariant (variantText v), fieldText kClkdiv (natText clkdiv),
          fieldText kLoad (natText n), fieldText kVec (vecText vec)]) =
      .error (.outsideType (natText n)))
end

