-- ==== Sys2Proof/Laws/Decode.lean ====
section
/-! SUPPORT. The pieces of a text line, read back: numbers, operand values, tokens, and operands by key. -/

namespace Sys2Proof

/-! ### Characters of a token -/

/-- A character that may stand inside a token: no blank, no semicolon, no end of line. -/
def cleanChar (c : Byte) : Bool := !isBlank c && !isSemicolon c && !isNewline c

/-- A text that reads back as one token. -/
def CleanToken (t : Text) : Prop := t ≠ [] ∧ ∀ c ∈ t, cleanChar c = true

theorem decDigit_value : ∀ d, d < 10 → decVal (decDigit d) = some d := by decide

theorem decDigit_clean : ∀ d, d < 10 → cleanChar (decDigit d) = true ∧ decDigit d ≠ 0x78#8 := by decide

/-! ### Numbers -/

theorem readDigits_append (val : Byte → Option Nat) (base acc : Nat) (xs ys : Text) :
    readDigits val base acc (xs ++ ys) = (readDigits val base acc xs).bind fun a => readDigits val base a ys := by
  induction xs generalizing acc with
  | nil => rfl
  | cons c cs ih =>
    simp only [List.cons_append, readDigits]
    cases val c with
    | none => rfl
    | some d => exact ih _

theorem readDigits_decDigits {fuel n : Nat} (h : n < fuel) : readDigits decVal 10 0 (decDigits fuel n) = some n := by
  induction fuel generalizing n with
  | zero => omega
  | succ fuel ih =>
    rw [decDigits]
    split
    · rename_i h10
      simp [readDigits, decDigit_value n h10]
    · rw [readDigits_append, ih (by omega)]
      simp [readDigits, decDigit_value (n % 10) (by omega)]
      omega

theorem decDigits_clean {fuel n : Nat} : ∀ c ∈ decDigits fuel n, cleanChar c = true ∧ c ≠ 0x78#8 := by
  induction fuel generalizing n with
  | zero => simp [decDigits]
  | succ fuel ih =>
    rw [decDigits]
    split
    · rename_i h10
      simpa using decDigit_clean n h10
    · intro c hc
      rcases List.mem_append.1 hc with h | h
      · exact ih c h
      · obtain rfl := List.mem_singleton.1 h
        exact decDigit_clean _ (by omega)

theorem natText_ne_nil (n : Nat) : natText n ≠ [] := by
  rw [natText, decDigits]; split <;> simp

theorem stripPrefix_eq_some {p t v : Text} : stripPrefix p t = some v ↔ t = p ++ v := by
  induction p generalizing t with
  | nil => simp [stripPrefix, eq_comm]
  | cons a p ih =>
    cases t with
    | nil => simp [stripPrefix]
    | cons c cs =>
      by_cases h : a = c
      · simp [stripPrefix, h, ih]
      · simp [stripPrefix, h, Ne.symm h]

@[simp] theorem stripPrefix_self (p v : Text) : stripPrefix p (p ++ v) = some v := stripPrefix_eq_some.2 rfl

@[simp] theorem readNat?_natText (n : Nat) : readNat? (natText n) = some n := by
  have hx : stripPrefix (chars ['0', 'x']) (natText n) = none := by
    rw [Option.eq_none_iff_forall_ne_some]
    intro v hv
    have hm : 0x78#8 ∈ natText n := by rw [stripPrefix_eq_some.1 hv]; simp [chars]
    exact (decDigits_clean _ hm).2 rfl
  have hn : (natText n).isEmpty = false := by simpa using natText_ne_nil n
  simp only [readNat?, hx, hn, Bool.false_eq_true, if_false]
  exact readDigits_decDigits (Nat.lt_succ_self n)

@[simp] theorem readNat?_byteText (b : Byte) : readNat? (byteText b) = some b.toNat := by
  revert b; decide

/-! ### Operand values -/

@[simp] theorem readNat_natText (n : Nat) : readNat (natText n) = .ok n := by simp [readNat]

@[simp] theorem readBits_natText {w : Nat} (b : BitVec w) : readBits w (natText b.toNat) = .ok b := by
  simp [readBits, b.isLt]

@[simp] theorem readBits_byteText (b : Byte) : readBits 8 (byteText b) = .ok b := by
  have : b.toNat < 256 := b.isLt
  simp [readBits, this]

/-- A numeral outside a 1-bit operand. -/
theorem readBool_outside {n : Nat} (h : 2 ≤ n) : readBool (natText n) = .error (.outsideType (natText n)) := by
  obtain ⟨m, rfl⟩ := Nat.exists_eq_add_of_le' h
  simp [readBool]

@[simp] theorem readBool_boolText (b : Bool) : readBool (boolText b) = .ok b := by cases b <;> rfl

@[simp] theorem readBool_natText (b : Bool) : readBool (natText b.toNat) = .ok b := by cases b <;> rfl

@[simp] theorem readVariant_variantText (v : Variant) : readVariant (variantText v) = .ok v := by cases v <;> rfl

theorem readVecBits_bits (vec : List Bool) : readVecBits (vec.map bitText) = some vec := by
  induction vec with
  | nil => rfl
  | cons x vec ih => cases x <;> simp [readVecBits, bitText, ih]

@[simp] theorem readVec_vecText (vec : List Bool) : readVec (vecText vec) = .ok vec := by
  simp [readVec, vecText, readVecBits_bits]

@[simp] theorem readTarget_targetText (t : Target) : readTarget (targetText t) = .ok t := by
  cases t with
  | bcast => rfl
  | chip c =>
    have h : kChip ++ 0x3A#8 :: natText c.toNat = (kChip ++ [0x3A#8]) ++ natText c.toNat := by simp
    have hb : kChip ++ 0x3A#8 :: natText c.toNat ≠ kBcast := by simp [kChip, kBcast, chars]
    rw [targetText, readTarget, if_neg hb, h, stripPrefix_self]
    simp only [readBits_natText]

/-! ### Pieces between separators -/

theorem splitAtSep_clean {sep : Byte → Bool} {t : Text} (h : ∀ c ∈ t, sep c = false) : splitAtSep sep t = [t] := by
  induction t with
  | nil => rfl
  | cons c cs ih => simp [splitAtSep, h c (by simp), ih fun d hd => h d (by simp [hd])]

theorem splitAtSep_cons {sep : Byte → Bool} {t : Text} {c : Byte} (rest : Text) (h : ∀ c ∈ t, sep c = false)
    (hc : sep c = true) : splitAtSep sep (t ++ c :: rest) = t :: splitAtSep sep rest := by
  induction t with
  | nil => simp [splitAtSep, hc]
  | cons d t ih => simp [splitAtSep, h d (by simp), ih fun e he => h e (by simp [he])]

/-- Pieces free of the separator come back from their join. -/
theorem splitAtSep_joinWith {sep : Byte → Bool} {c : Byte} (hc : sep c = true) {ts : List Text} (hn : ts ≠ [])
    (h : ∀ t ∈ ts, ∀ d ∈ t, sep d = false) : splitAtSep sep (joinWith c ts) = ts := by
  induction ts with
  | nil => exact absurd rfl hn
  | cons t ts ih =>
    cases ts with
    | nil => exact splitAtSep_clean (h t (by simp))
    | cons u ts =>
      rw [joinWith, splitAtSep_cons _ (h t (by simp)) hc, ih (by simp) fun v hv => h v (by simp [hv])]
      simp

theorem mem_joinWith {c d : Byte} {ts : List Text} (h : d ∈ joinWith c ts) : d = c ∨ ∃ t ∈ ts, d ∈ t := by
  induction ts with
  | nil => simp [joinWith] at h
  | cons t ts ih =>
    cases ts with
    | nil => exact .inr ⟨t, by simp, h⟩
    | cons u ts =>
      rw [joinWith] at h
      · rcases List.mem_append.1 h with h | h
        · exact .inr ⟨t, by simp, h⟩
        · rcases List.mem_cons.1 h with h | h
          · exact .inl h
          · rcases ih h with h | ⟨v, hv, hd⟩
            · exact .inl h
            · exact .inr ⟨v, by simp [hv], hd⟩
      · simp

/-- The tokens of a line written from clean tokens are those tokens. -/
theorem tokens_joinWith {ts : List Text} (h : ∀ t ∈ ts, CleanToken t) : tokens (joinWith 0x20#8 ts) = ts := by
  by_cases hn : ts = []
  · subst hn; rfl
  have hs : (joinWith 0x20#8 ts).takeWhile (fun c => !isSemicolon c) = joinWith 0x20#8 ts := by
    rw [List.takeWhile_eq_self_iff]
    intro c hc
    rcases mem_joinWith hc with rfl | ⟨t, ht, hct⟩
    · rfl
    · have := (h t ht).2 c hct
      simp only [cleanChar, Bool.and_eq_true] at this
      exact this.1.2
  rw [tokens, hs, splitAtSep_joinWith rfl hn]
  · rw [List.filter_eq_self]
    intro t ht
    simpa using (h t ht).1
  · intro t ht d hd
    have := (h t ht).2 d hd
    simp only [cleanChar, Bool.and_eq_true, Bool.not_eq_true'] at this
    exact this.1.1

/-! ### Lists of bytes and header sets -/

theorem readBytes_byteTexts (bs : List Byte) : readBytes (bs.map byteText) = .ok bs := by
  induction bs with
  | nil => rfl
  | cons b bs ih => simp [readBytes, ih]

theorem hexDigit_clean : ∀ d, d < 16 → cleanChar (hexDigit d) = true ∧ isComma (hexDigit d) = false := by decide

theorem byteText_clean (b : Byte) : ∀ c ∈ byteText b, cleanChar c = true ∧ isComma c = false := by
  have hb : b.toNat < 256 := b.isLt
  intro c hc
  simp only [byteText, chars, List.map_cons, List.map_nil, List.cons_append, List.nil_append, List.mem_cons,
    List.not_mem_nil, or_false] at hc
  rcases hc with rfl | rfl | rfl | rfl
  · decide
  · decide
  · exact hexDigit_clean _ (by omega)
  · exact hexDigit_clean _ (by omega)

theorem readByteList_byteListText (o c : Byte) (bs : List Byte) : readByteList o c (byteListText o c bs) = .ok bs := by
  simp only [readByteList, byteListText, List.getLast?_append, List.getLast?_singleton, Option.some_or, and_self, if_true,
    List.dropLast_concat]
  cases bs with
  | nil => rfl
  | cons b bs =>
    have hne : (joinWith 0x2C#8 ((b :: bs).map byteText)).isEmpty = false := by
      cases bs <;> simp [joinWith, byteText, chars]
    rw [hne, splitAtSep_joinWith rfl (by simp)]
    · simp only [Bool.false_eq_true, if_false]
      exact readBytes_byteTexts (b :: bs)
    · intro t ht d hd
      obtain ⟨x, -, rfl⟩ := List.mem_map.1 ht
      exact (byteText_clean x d hd).2

theorem byteSet_getLsbD (bs : List Byte) (k : Nat) :
    (byteSet bs).getLsbD k = decide (∃ b ∈ bs, b.toNat = k) := by
  have key : ∀ m : BitVec 256, (bs.foldl (fun m b => m ||| BitVec.twoPow 256 b.toNat) m).getLsbD k =
      (m.getLsbD k || decide (∃ b ∈ bs, b.toNat = k)) := by
    induction bs with
    | nil => simp
    | cons b bs ih =>
      intro m
      have hb : (BitVec.twoPow 256 b.toNat).getLsbD k = decide (b.toNat = k) := by
        have : b.toNat < 256 := b.isLt
        simp [BitVec.getLsbD_twoPow, this, eq_comm]
      rw [List.foldl_cons, ih]
      simp [hb, Bool.or_assoc]
  simpa [byteSet] using key 0

/-- A set is the set of its members. -/
theorem byteSet_bytesOfSet (m : BitVec 256) : byteSet (bytesOfSet m) = m := by
  apply BitVec.eq_of_getLsbD_eq
  intro k hk
  rw [byteSet_getLsbD]
  by_cases h : m.getLsbD k = true
  · rw [h, decide_eq_true_iff]
    exact ⟨BitVec.ofNat 8 k, List.mem_map.2 ⟨k, by simp [h, hk], rfl⟩, by simp; omega⟩
  · rw [Bool.not_eq_true] at h
    rw [h, decide_eq_false_iff_not]
    rintro ⟨b, hb, rfl⟩
    obtain ⟨j, hj, rfl⟩ := List.mem_map.1 hb
    obtain ⟨hj, hmj⟩ := List.mem_filter.1 hj
    have hj := List.mem_range.1 hj
    have e : (BitVec.ofNat 8 j).toNat = j := by simp; omega
    rw [e, hmj] at h
    exact Bool.noConfusion h

@[simp] theorem readSet_setText (m : BitVec 256) : readSet (setText m) = .ok m := by
  simp [readSet, setText, readByteList_byteListText, byteSet_bytesOfSet]

/-! ### Operands by key -/

@[simp] theorem takeOpt_fieldText (key v : Text) (rest : List Text) :
    takeOpt key (fieldText key v :: rest) = (some v, rest) := by
  have h : fieldText key v = (key ++ [0x3D#8]) ++ v := by simp [fieldText]
  simp only [takeOpt, h, stripPrefix_self]

theorem field_fieldText {α : Type} {key v : Text} {read : Text → Except DecodeError α} {x : α} (rest : List Text)
    (h : read v = .ok x) : field key read (fieldText key v :: rest) = .ok (x, rest) := by
  simp [field, h]

theorem field_error {α : Type} {key v : Text} {read : Text → Except DecodeError α} {e : DecodeError} (rest : List Text)
    (h : read v = .error e) : field key read (fieldText key v :: rest) = .error e := by
  simp [field, h]

theorem optField_fieldText {α : Type} {key v : Text} {read : Text → Except DecodeError α} {dflt x : α}
    (rest : List Text) (h : read v = .ok x) : optField key read dflt (fieldText key v :: rest) = .ok (x, rest) := by
  simp [optField, h]

/-- The next token is not the operand `key=`. -/
def NotNext (key : Text) (toks : List Text) : Prop := ∀ t ∈ toks.head?, stripPrefix (key ++ [0x3D#8]) t = none

theorem notNext_cons {key t : Text} {toks : List Text} (h : stripPrefix (key ++ [0x3D#8]) t = none) :
    NotNext key (t :: toks) := by
  simpa [NotNext] using h

theorem notNext_optText {key key' : Text} {n : Nat} {toks : List Text}
    (h : ∀ v, stripPrefix (key ++ [0x3D#8]) (fieldText key' v) = none) (ht : NotNext key toks) :
    NotNext key (optText key' n ++ toks) := by
  unfold optText
  split
  · exact ht
  · exact notNext_cons (h _)

theorem optField_skip {α : Type} {key : Text} {read : Text → Except DecodeError α} {dflt : α} {toks : List Text}
    (h : NotNext key toks) : optField key read dflt toks = .ok (dflt, toks) := by
  cases toks with
  | nil => rfl
  | cons t rest =>
    have h : stripPrefix (key ++ [0x3D#8]) t = none := h t rfl
    simp [optField, takeOpt, h]

/-- An ignored operand that is left out when it holds 0. -/
theorem optField_optText {α : Type} {key : Text} {read : Text → Except DecodeError α} {dflt x : α} {n : Nat}
    {toks : List Text} (hr : read (natText n) = .ok x) (h0 : n = 0 → x = dflt) (hs : NotNext key toks) :
    optField key read dflt (optText key n ++ toks) = .ok (x, toks) := by
  unfold optText
  split
  · rename_i hn
    rw [h0 hn]; exact optField_skip hs
  · exact optField_fieldText toks hr

theorem optField_nat {key : Text} (n : Nat) {toks : List Text} (h : NotNext key toks) :
    optField key readNat 0 (optText key n ++ toks) = .ok (n, toks) :=
  optField_optText (readNat_natText n) id h

theorem optField_bits {key : Text} {w : Nat} (b : BitVec w) {toks : List Text} (h : NotNext key toks) :
    optField key (readBits w) 0 (optText key b.toNat ++ toks) = .ok (b, toks) :=
  optField_optText (readBits_natText b) (fun h0 => BitVec.eq_of_toNat_eq (by simpa using h0)) h

theorem optField_bool {key : Text} (b : Bool) {toks : List Text} (h : NotNext key toks) :
    optField key readBool false (optText key b.toNat ++ toks) = .ok (b, toks) :=
  optField_optText (readBool_natText b) (by cases b <;> simp) h

theorem optField_variant {key : Text} (v : Variant) {toks : List Text} (hk : key = kVariant) (h : NotNext key toks) :
    optField key readVariant .gecco (optVariantText v ++ toks) = .ok (v, toks) := by
  subst hk
  cases v
  · exact optField_skip h
  · exact optField_fieldText toks rfl

/-! ### Jobs -/

/-- The operands of a LEGACY job read back. -/
theorem readJob_legacy (j : Job) (hp : j.proto = .legacy) : readJob (jobTokens j) = .ok (j, []) := by
  obtain ⟨proto, variant, clkdiv, load, bcast, chip, nload, vec⟩ := j
  simp only at hp
  subst hp
  have e : ∀ rest, readJob (kLegacy :: rest) = readLegacyJob rest := fun _ => rfl
  have v0 : ∀ key, stripPrefix (key ++ [0x3D#8]) (fieldText kVec (vecText vec)) = none →
      NotNext key [fieldText kVec (vecText vec)] := fun _ h => notNext_cons h
  have n1 : NotNext kChip (optText kNload nload ++ [fieldText kVec (vecText vec)]) :=
    notNext_optText (fun _ => rfl) (v0 _ rfl)
  have n2 : NotNext kBcast (optText kChip chip.toNat ++ (optText kNload nload ++ [fieldText kVec (vecText vec)])) :=
    notNext_optText (fun _ => rfl) (notNext_optText (fun _ => rfl) (v0 _ rfl))
  simp only [jobTokens, List.cons_append, List.nil_append, List.append_assoc, e, readLegacyJob, bind, Except.bind,
    field_fieldText _ (readVariant_variantText _), field_fieldText _ (readNat_natText _),
    field_fieldText _ (readBool_boolText _), optField_bool bcast n2, optField_bits chip n1,
    optField_nat nload (v0 kNload rfl), field_fieldText _ (readVec_vecText _)]
  rfl

/-- The operands of a SPI job read back. -/
theorem readJob_spi (j : Job) (hp : j.proto = .spi) : readJob (jobTokens j) = .ok (j, []) := by
  obtain ⟨proto, variant, clkdiv, load, bcast, chip, nload, vec⟩ := j
  simp only at hp
  subst hp
  have e : ∀ rest, readJob (kSpi :: rest) = readSpiJob rest := fun _ => rfl
  have hn : ∀ rest, readNload load
      ((if load = true then [fieldText kNload (natText nload)] else optText kNload nload) ++
        fieldText kVec (vecText vec) :: rest) = .ok (nload, fieldText kVec (vecText vec) :: rest) := by
    intro rest
    cases load
    · exact optField_nat nload (notNext_cons rfl)
    · simp only [readNload, if_true, List.cons_append, List.nil_append, field_fieldText _ (readNat_natText _)]
  have l0 : ∀ key rest, stripPrefix (key ++ [0x3D#8]) (fieldText kLoad (boolText load)) = none →
      NotNext key (fieldText kLoad (boolText load) :: rest) := fun _ _ h => notNext_cons h
  cases bcast
  · have n1 : ∀ rest, NotNext kVariant (optText kClkdiv clkdiv ++ fieldText kLoad (boolText load) :: rest) :=
      fun rest => notNext_optText (fun _ => rfl) (l0 _ rest rfl)
    simp only [jobTokens, Job.target, Bool.false_eq_true, if_false, List.cons_append, List.nil_append,
      List.append_assoc, e, readSpiJob, bind, Except.bind, pure, Except.pure,
      field_fieldText _ (readTarget_targetText _), optField_variant variant rfl (n1 _),
      optField_nat clkdiv (l0 kClkdiv _ rfl), field_fieldText _ (readBool_boolText _), hn,
      field_fieldText _ (readVec_vecText _)]
  · have n2 : ∀ rest, NotNext kClkdiv (optText kChip chip.toNat ++ fieldText kLoad (boolText load) :: rest) :=
      fun rest => notNext_optText (fun _ => rfl) (l0 _ rest rfl)
    have n1 : ∀ rest, NotNext kVariant
        (optText kClkdiv clkdiv ++ (optText kChip chip.toNat ++ fieldText kLoad (boolText load) :: rest)) :=
      fun rest => notNext_optText (fun _ => rfl) (notNext_optText (fun _ => rfl) (l0 _ rest rfl))
    simp only [jobTokens, Job.target, if_true, List.cons_append, List.nil_append,
      List.append_assoc, e, readSpiJob, bind, Except.bind, pure, Except.pure,
      field_fieldText _ (readTarget_targetText _), optField_variant variant rfl (n1 _),
      optField_nat clkdiv (n2 _), optField_bits chip (l0 kChip _ rfl), field_fieldText _ (readBool_boolText _),
      hn, field_fieldText _ (readVec_vecText _)]

/-! ### Names -/

@[simp] theorem Row.ofName_name (r : Row) : Row.ofName r.name = some r := by cases r <;> decide

/-- No row has the name of a pseudo-operation. -/
theorem Row.name_ne_pseudo (r : Row) :
    r.name ≠ nPushs ∧ r.name ≠ nDecode ∧ r.name ≠ nDrain ∧ r.name ≠ nGenerate := by
  cases r <;> decide

end Sys2Proof
end

