-- ==== Sys2Proof/Laws/State.lean ====
section
/-! SUPPORT. One lemma per field per named update of the state, so that no later proof unfolds a record update. -/

namespace Sys2Proof.Machine

@[simp] theorem raiseFsd_fsd_rev (c : FaultCode) (s : State) : (raiseFsd c s).fsd.rev = s.fsd.rev := rfl
@[simp] theorem raiseFsd_fsd_fw (c : FaultCode) (s : State) : (raiseFsd c s).fsd.fw = s.fsd.fw := rfl
@[simp] theorem raiseFsd_fsd_hdr (c : FaultCode) (s : State) : (raiseFsd c s).fsd.hdr = s.fsd.hdr := rfl
@[simp] theorem raiseFsd_fsd_mode (c : FaultCode) (s : State) : (raiseFsd c s).fsd.mode = s.fsd.mode := rfl
@[simp] theorem raiseFsd_fsd_buf (c : FaultCode) (s : State) : (raiseFsd c s).fsd.buf = s.fsd.buf := rfl
@[simp] theorem raiseFsd_fsd_frames (c : FaultCode) (s : State) : (raiseFsd c s).fsd.frames = s.fsd.frames := rfl
@[simp] theorem raiseFsd_fsd_fault (c : FaultCode) (s : State) : (raiseFsd c s).fsd.fault = some c := rfl
@[simp] theorem raiseFsd_wsq (c : FaultCode) (s : State) : (raiseFsd c s).wsq = s.wsq := rfl
@[simp] theorem raiseFsd_refused (c : FaultCode) (s : State) : (raiseFsd c s).refused = s.refused := rfl
@[simp] theorem raiseFsd_report (c : FaultCode) (s : State) : (raiseFsd c s).report = .faulted c := rfl
@[simp] theorem raiseFsd_lenReads (c : FaultCode) (s : State) : (raiseFsd c s).lenReads = s.lenReads := rfl
@[simp] theorem raiseFsd_ended (c : FaultCode) (s : State) : (raiseFsd c s).ended = s.ended := rfl
@[simp] theorem raiseFsd_pending (c : FaultCode) (s : State) : (raiseFsd c s).pending = s.pending := rfl

@[simp] theorem raiseWsq_fsd (c : FaultCode) (s : State) : (raiseWsq c s).fsd = s.fsd := rfl
@[simp] theorem raiseWsq_wsq_job (c : FaultCode) (s : State) : (raiseWsq c s).wsq.job = s.wsq.job := rfl
@[simp] theorem raiseWsq_wsq_jobLen (c : FaultCode) (s : State) : (raiseWsq c s).wsq.jobLen = s.wsq.jobLen := rfl
@[simp] theorem raiseWsq_wsq_pos (c : FaultCode) (s : State) : (raiseWsq c s).wsq.pos = s.wsq.pos := rfl
@[simp] theorem raiseWsq_wsq_phase (c : FaultCode) (s : State) : (raiseWsq c s).wsq.phase = s.wsq.phase := rfl
@[simp] theorem raiseWsq_wsq_lenHi (c : FaultCode) (s : State) : (raiseWsq c s).wsq.lenHi = s.wsq.lenHi := rfl
@[simp] theorem raiseWsq_wsq_lenLo (c : FaultCode) (s : State) : (raiseWsq c s).wsq.lenLo = s.wsq.lenLo := rfl
@[simp] theorem raiseWsq_wsq_out (c : FaultCode) (s : State) : (raiseWsq c s).wsq.out = s.wsq.out := rfl
@[simp] theorem raiseWsq_wsq_fault (c : FaultCode) (s : State) : (raiseWsq c s).wsq.fault = some c := rfl
@[simp] theorem raiseWsq_refused (c : FaultCode) (s : State) : (raiseWsq c s).refused = s.refused := rfl
@[simp] theorem raiseWsq_report (c : FaultCode) (s : State) : (raiseWsq c s).report = .faulted c := rfl
@[simp] theorem raiseWsq_lenReads (c : FaultCode) (s : State) : (raiseWsq c s).lenReads = s.lenReads := rfl
@[simp] theorem raiseWsq_ended (c : FaultCode) (s : State) : (raiseWsq c s).ended = s.ended := rfl
@[simp] theorem raiseWsq_pending (c : FaultCode) (s : State) : (raiseWsq c s).pending = s.pending := rfl

@[simp] theorem refuse_fsd (c : RefusalCode) (s : State) : (refuse c s).fsd = s.fsd := rfl
@[simp] theorem refuse_wsq (c : RefusalCode) (s : State) : (refuse c s).wsq = s.wsq := rfl
@[simp] theorem refuse_refused (c : RefusalCode) (s : State) : (refuse c s).refused = true := rfl
@[simp] theorem refuse_report (c : RefusalCode) (s : State) : (refuse c s).report = .refusal c := rfl
@[simp] theorem refuse_lenReads (c : RefusalCode) (s : State) : (refuse c s).lenReads = s.lenReads := rfl
@[simp] theorem refuse_ended (c : RefusalCode) (s : State) : (refuse c s).ended = s.ended := rfl
@[simp] theorem refuse_pending (c : RefusalCode) (s : State) : (refuse c s).pending = s.pending := rfl

@[simp] theorem configure_fsd_rev (rev : Bool) (fw : BitVec 4) (hdr : BitVec 256) (s : State) : (configure rev fw hdr s).fsd.rev = some rev := rfl
@[simp] theorem configure_fsd_fw (rev : Bool) (fw : BitVec 4) (hdr : BitVec 256) (s : State) : (configure rev fw hdr s).fsd.fw = some fw := rfl
@[simp] theorem configure_fsd_hdr (rev : Bool) (fw : BitVec 4) (hdr : BitVec 256) (s : State) : (configure rev fw hdr s).fsd.hdr = some hdr := rfl
@[simp] theorem configure_fsd_mode (rev : Bool) (fw : BitVec 4) (hdr : BitVec 256) (s : State) : (configure rev fw hdr s).fsd.mode = s.fsd.mode := rfl
@[simp] theorem configure_fsd_buf (rev : Bool) (fw : BitVec 4) (hdr : BitVec 256) (s : State) : (configure rev fw hdr s).fsd.buf = s.fsd.buf := rfl
@[simp] theorem configure_fsd_frames (rev : Bool) (fw : BitVec 4) (hdr : BitVec 256) (s : State) : (configure rev fw hdr s).fsd.frames = s.fsd.frames := rfl
@[simp] theorem configure_fsd_fault (rev : Bool) (fw : BitVec 4) (hdr : BitVec 256) (s : State) : (configure rev fw hdr s).fsd.fault = s.fsd.fault := rfl
@[simp] theorem configure_wsq (rev : Bool) (fw : BitVec 4) (hdr : BitVec 256) (s : State) : (configure rev fw hdr s).wsq = s.wsq := rfl
@[simp] theorem configure_refused (rev : Bool) (fw : BitVec 4) (hdr : BitVec 256) (s : State) : (configure rev fw hdr s).refused = s.refused := rfl
@[simp] theorem configure_report (rev : Bool) (fw : BitVec 4) (hdr : BitVec 256) (s : State) : (configure rev fw hdr s).report = .done := rfl
@[simp] theorem configure_lenReads (rev : Bool) (fw : BitVec 4) (hdr : BitVec 256) (s : State) : (configure rev fw hdr s).lenReads = s.lenReads := rfl
@[simp] theorem configure_ended (rev : Bool) (fw : BitVec 4) (hdr : BitVec 256) (s : State) : (configure rev fw hdr s).ended = s.ended := rfl
@[simp] theorem configure_pending (rev : Bool) (fw : BitVec 4) (hdr : BitVec 256) (s : State) : (configure rev fw hdr s).pending = s.pending := rfl

@[simp] theorem emitFrame_rev (fw : BitVec 4) (buf : List Byte) (f : Fsd) : (emitFrame fw buf f).rev = f.rev := rfl
@[simp] theorem emitFrame_fw (fw : BitVec 4) (buf : List Byte) (f : Fsd) : (emitFrame fw buf f).fw = f.fw := rfl
@[simp] theorem emitFrame_hdr (fw : BitVec 4) (buf : List Byte) (f : Fsd) : (emitFrame fw buf f).hdr = f.hdr := rfl
@[simp] theorem emitFrame_mode (fw : BitVec 4) (buf : List Byte) (f : Fsd) : (emitFrame fw buf f).mode = f.mode := rfl
@[simp] theorem emitFrame_buf (fw : BitVec 4) (buf : List Byte) (f : Fsd) : (emitFrame fw buf f).buf = f.buf := rfl
@[simp] theorem emitFrame_frames (fw : BitVec 4) (buf : List Byte) (f : Fsd) : (emitFrame fw buf f).frames = f.frames ++ [frameRecord fw buf] := rfl
@[simp] theorem emitFrame_fault (fw : BitVec 4) (buf : List Byte) (f : Fsd) : (emitFrame fw buf f).fault = f.fault := rfl

@[simp] theorem emitByte_job (b : Byte) (len : Nat) (w : Wsq) : (emitByte b len w).job = w.job := rfl
@[simp] theorem emitByte_jobLen (b : Byte) (len : Nat) (w : Wsq) : (emitByte b len w).jobLen = w.jobLen := rfl
@[simp] theorem emitByte_pos (b : Byte) (len : Nat) (w : Wsq) : (emitByte b len w).pos = w.pos + 1 := rfl
@[simp] theorem emitByte_phase (b : Byte) (len : Nat) (w : Wsq) : (emitByte b len w).phase = phaseAfterStep (w.pos + 1) len := rfl
@[simp] theorem emitByte_lenHi (b : Byte) (len : Nat) (w : Wsq) : (emitByte b len w).lenHi = w.lenHi := rfl
@[simp] theorem emitByte_lenLo (b : Byte) (len : Nat) (w : Wsq) : (emitByte b len w).lenLo = w.lenLo := rfl
@[simp] theorem emitByte_out (b : Byte) (len : Nat) (w : Wsq) : (emitByte b len w).out = w.out ++ [b] := rfl
@[simp] theorem emitByte_fault (b : Byte) (len : Nat) (w : Wsq) : (emitByte b len w).fault = w.fault := rfl

@[simp] theorem acceptJob_job (job : Job) (w : Wsq) : (acceptJob job w).job = some job := rfl
@[simp] theorem acceptJob_jobLen (job : Job) (w : Wsq) : (acceptJob job w).jobLen = some (jobLength job) := rfl
@[simp] theorem acceptJob_pos (job : Job) (w : Wsq) : (acceptJob job w).pos = 0 := rfl
@[simp] theorem acceptJob_phase (job : Job) (w : Wsq) : (acceptJob job w).phase = phaseAfterGen (jobLength job) := rfl
@[simp] theorem acceptJob_out (job : Job) (w : Wsq) : (acceptJob job w).out = w.out := rfl
@[simp] theorem acceptJob_fault (job : Job) (w : Wsq) : (acceptJob job w).fault = w.fault := rfl

@[simp] theorem frameRecord_raw (fw : BitVec 4) (buf : List Byte) : (frameRecord fw buf).raw = buf := rfl

@[simp] theorem frameRecord_fields (fw : BitVec 4) (buf : List Byte) :
    (frameRecord fw buf).fields = if fw = 5#4 then fdec5 buf else none := rfl

/-- The length registers after an accepted job are the ones of R37. -/
theorem acceptJob_header (job : Job) (w : Wsq) :
    ((acceptJob job w).lenHi, (acceptJob job w).lenLo) =
      match job.proto with
      | .legacy => (some (lengthHeader (jobLength job)).1, some (lengthHeader (jobLength job)).2)
      | .spi => (none, none) := by
  simp only [acceptJob]
  cases job.proto <;> rfl

end Sys2Proof.Machine
end

