-- ==== Sys2Proof/Laws/Ops.lean ====
section
/-! SUPPORT. For each shared operation, once, everything it can do. -/

namespace Sys2Proof.Machine

variable {k : State → Result} {s t : State}

/-! ### Outcomes -/

theorem fsdOperation_next :
    fsdOperation k s = .next t ↔ s.fsd.fault = none ∧ k s = .next t := by
  unfold fsdOperation; split <;> simp_all

theorem fsdOperation_fault {f : Fault} :
    fsdOperation k s = .fault f ↔
      (s.fsd.fault = none ∧ k s = .fault f) ∨ (s.fsd.fault ≠ none ∧ f = .noStepFsdFaulted) := by
  unfold fsdOperation; split <;> simp_all [eq_comm]

theorem fsdOperation_refused {r : Refusal} :
    fsdOperation k s = .refused r ↔ s.fsd.fault = none ∧ k s = .refused r := by
  unfold fsdOperation; split <;> simp_all

theorem wsqOperation_next :
    wsqOperation k s = .next t ↔ s.wsq.fault = none ∧ k s = .next t := by
  unfold wsqOperation; split <;> simp_all

theorem wsqOperation_fault {f : Fault} :
    wsqOperation k s = .fault f ↔
      (s.wsq.fault = none ∧ k s = .fault f) ∨ (s.wsq.fault ≠ none ∧ f = .noStepWsqFaulted) := by
  unfold wsqOperation; split <;> simp_all [eq_comm]

theorem wsqOperation_refused {r : Refusal} :
    wsqOperation k s = .refused r ↔ s.wsq.fault = none ∧ k s = .refused r := by
  unfold wsqOperation; split <;> simp_all

theorem fsdOperation_of_none (h : s.fsd.fault = none) : fsdOperation k s = k s := by
  simp [fsdOperation, h]

theorem wsqOperation_of_none (h : s.wsq.fault = none) : wsqOperation k s = k s := by
  simp [wsqOperation, h]

theorem unlessRefused_next {r : Option RefusalCode} :
    unlessRefused r k s = .next t ↔ (∃ c, r = some c ∧ refuse c s = t) ∨ (r = none ∧ k s = .next t) := by
  cases r <;> simp [unlessRefused]

theorem unlessRefused_fault {r : Option RefusalCode} {f : Fault} :
    unlessRefused r k s = .fault f ↔ r = none ∧ k s = .fault f := by
  cases r <;> simp [unlessRefused]

theorem unlessRefused_refused {r : Option RefusalCode} {e : Refusal} :
    unlessRefused r k s = .refused e ↔ r = none ∧ k s = .refused e := by
  cases r <;> simp [unlessRefused]

/-! ### What the operations refuse -/

theorem fwLegal_iff {fw : BitVec 4} : fwLegal fw = true ↔ 1 ≤ fw.toNat ∧ fw.toNat ≤ 8 := by
  simp [fwLegal]

theorem nchipsLegal_iff {n : BitVec 6} : nchipsLegal n = true ↔ n.toNat ≤ 32 := by
  simp [nchipsLegal]

theorem configRefusal_none {mode : FsdMode} {fw : BitVec 4} :
    configRefusal mode fw = none ↔ mode = .hunt ∧ fwLegal fw = true := by
  cases mode <;> simp [configRefusal]

theorem configChipsRefusal_none {mode : FsdMode} {fw : BitVec 4} {n : BitVec 6} :
    configChipsRefusal mode fw n = none ↔ mode = .hunt ∧ fwLegal fw = true ∧ nchipsLegal n = true := by
  cases mode <;> simp [configChipsRefusal]
  cases fwLegal fw <;> simp

theorem genRefusal_none {phase : Phase} {job : Job} :
    genRefusal phase job = none ↔ phase = .idle ∧ jobLegal job = true := by
  cases phase <;> simp [genRefusal, jobLegal]
  cases clkdivLegal job <;> cases chipLegal job <;> simp

theorem configRefusal_code {mode : FsdMode} {fw : BitVec 4} {c : RefusalCode}
    (h : configRefusal mode fw = some c) : c = .fsdConfigInFrame ∨ c = .fsdBadFw := by
  unfold configRefusal at h; split at h <;> simp_all

theorem configChipsRefusal_code {mode : FsdMode} {fw : BitVec 4} {n : BitVec 6} {c : RefusalCode}
    (h : configChipsRefusal mode fw n = some c) :
    c = .fsdConfigInFrame ∨ c = .fsdBadFw ∨ c = .fsdBadNchips := by
  unfold configChipsRefusal at h
  split at h
  · simp_all
  · split at h <;> simp_all

theorem genRefusal_code {phase : Phase} {job : Job} {c : RefusalCode} (h : genRefusal phase job = some c) :
    c = .wsqBusy ∨ c = .wsqBadClkdiv ∨ c = .wsqBadChipid ∨ c = .wsqLenOverflow := by
  unfold genRefusal at h
  split at h
  · simp_all
  · split at h
    · simp_all
    · split at h <;> simp_all

/-! ### Legal jobs -/

theorem clkdivLegal_iff {job : Job} : clkdivLegal job = true ↔ (job.proto = .legacy → 1 ≤ job.clkdiv) := by
  simp [clkdivLegal, Nat.one_le_iff_ne_zero, imp_iff_not_or]

theorem chipLegal_iff {job : Job} :
    chipLegal job = true ↔ (job.proto = .spi → job.bcast = false → job.chip.toNat ≤ 31) := by
  simp [chipLegal, imp_iff_not_or, or_assoc]

theorem lengthLegal_iff {job : Job} :
    lengthLegal job = true ↔ (job.proto = .legacy → jobLength job ≤ 0xFFFF) := by
  simp [lengthLegal, imp_iff_not_or]

theorem jobLegal_clkdiv {job : Job} (h : jobLegal job = true) (hp : job.proto = .legacy) : 1 ≤ job.clkdiv := by
  simp only [jobLegal, Bool.and_eq_true] at h
  exact clkdivLegal_iff.1 h.1.1 hp

theorem jobLegal_length {job : Job} (h : jobLegal job = true) (hp : job.proto = .legacy) :
    jobLength job ≤ 0xFFFF := by
  simp only [jobLegal, Bool.and_eq_true] at h
  exact lengthLegal_iff.1 h.2 hp

/-! ### Frames -/

section
variable {fw : BitVec 4} {hdr : BitVec 256} {v : Byte} {f : Fsd}

theorem takeByte_skip (hm : f.mode = .hunt) (hh : isHdr hdr v = false) : takeByte fw hdr v f = f := by
  simp [takeByte, classify, hm, hh]

theorem takeByte_single (hm : f.mode = .hunt) (hh : isHdr hdr v = true) (hw : fw = 1#4) :
    takeByte fw hdr v f = { f with buf := [], mode := .hunt, frames := f.frames ++ [frameRecord fw [v]] } := by
  simp [takeByte, classify, hm, hh, startFrame, emitFrame, modeAfterHeader, hw]

theorem takeByte_start (hm : f.mode = .hunt) (hh : isHdr hdr v = true) (hw : fw ≠ 1#4) :
    takeByte fw hdr v f = { f with buf := [v], mode := .collect } := by
  simp [takeByte, classify, hm, hh, startFrame, modeAfterHeader, hw]

theorem takeByte_extend (hm : f.mode = .collect) (hl : f.buf.length + 1 ≠ fw.toNat) :
    takeByte fw hdr v f = { f with buf := f.buf ++ [v], mode := .collect } := by
  simp [takeByte, classify, hm, extendFrame, modeAfterBody, hl]

theorem takeByte_complete (hm : f.mode = .collect) (hl : f.buf.length + 1 = fw.toNat) :
    takeByte fw hdr v f =
      { f with buf := [], mode := .hunt, frames := f.frames ++ [frameRecord fw (f.buf ++ [v])] } := by
  simp [takeByte, classify, hm, extendFrame, emitFrame, modeAfterBody, hl]

end

/-- A PUSH in any mode: the FSD after a logical byte, case by case (R126). -/
theorem takeByte_cases (fw : BitVec 4) (hdr : BitVec 256) (v : Byte) (f : Fsd) :
    (f.mode = .hunt ∧ isHdr hdr v = false ∧ takeByte fw hdr v f = f) ∨
    (f.mode = .hunt ∧ isHdr hdr v = true ∧ fw = 1#4 ∧
      takeByte fw hdr v f = { f with buf := [], mode := .hunt, frames := f.frames ++ [frameRecord fw [v]] }) ∨
    (f.mode = .hunt ∧ isHdr hdr v = true ∧ fw ≠ 1#4 ∧
      takeByte fw hdr v f = { f with buf := [v], mode := .collect }) ∨
    (f.mode = .collect ∧ f.buf.length + 1 ≠ fw.toNat ∧
      takeByte fw hdr v f = { f with buf := f.buf ++ [v], mode := .collect }) ∨
    (f.mode = .collect ∧ f.buf.length + 1 = fw.toNat ∧
      takeByte fw hdr v f =
        { f with buf := [], mode := .hunt, frames := f.frames ++ [frameRecord fw (f.buf ++ [v])] }) := by
  cases hm : f.mode
  · cases hh : isHdr hdr v
    · exact .inl ⟨rfl, rfl, takeByte_skip hm hh⟩
    · by_cases hw : fw = 1#4
      · exact .inr (.inl ⟨rfl, rfl, hw, takeByte_single hm hh hw⟩)
      · exact .inr (.inr (.inl ⟨rfl, rfl, hw, takeByte_start hm hh hw⟩))
  · by_cases hl : f.buf.length + 1 = fw.toNat
    · exact .inr (.inr (.inr (.inr ⟨rfl, hl, takeByte_complete hm hl⟩)))
    · exact .inr (.inr (.inr (.inl ⟨rfl, hl, takeByte_extend hm hl⟩)))

/-- A logical byte touches neither the configuration nor the fault register. -/
theorem takeByte_frame (fw : BitVec 4) (hdr : BitVec 256) (v : Byte) (f : Fsd) :
    (takeByte fw hdr v f).rev = f.rev ∧ (takeByte fw hdr v f).fw = f.fw ∧ (takeByte fw hdr v f).hdr = f.hdr ∧
      (takeByte fw hdr v f).fault = f.fault := by
  rcases takeByte_cases fw hdr v f with ⟨_, _, h⟩ | ⟨_, _, _, h⟩ | ⟨_, _, _, h⟩ | ⟨_, _, h⟩ | ⟨_, _, h⟩ <;>
    simp [h]

/-- FSD.FRAMES after a logical byte: at most one more record. -/
theorem takeByte_frames (fw : BitVec 4) (hdr : BitVec 256) (v : Byte) (f : Fsd) :
    (takeByte fw hdr v f).frames = f.frames ∨ ∃ r, (takeByte fw hdr v f).frames = f.frames ++ [r] := by
  rcases takeByte_cases fw hdr v f with ⟨_, _, h⟩ | ⟨_, _, _, h⟩ | ⟨_, _, _, h⟩ | ⟨_, _, h⟩ | ⟨_, _, h⟩ <;>
    simp [h]

/-! ### The schedule -/

@[simp] theorem issue_nil (ph : Phase) : issue ph [] = .nothing := rfl

@[simp] theorem issue_op (ph : Phase) (i : Instr) (rest : List HostItem) : issue ph (.op i :: rest) = .run i rest := rfl

@[simp] theorem issue_drain_run (rest : List HostItem) :
    issue .run (.drain :: rest) = .run .step (.drain :: rest) := rfl

@[simp] theorem issue_drain_idle (rest : List HostItem) : issue .idle (.drain :: rest) = issue .idle rest := rfl

theorem issue_word {ph : Phase} {bs : List Byte} {i : Instr} (rest : List HostItem) (h : decodeRaw bs = .ok i) :
    issue ph (.word bs :: rest) = .run i rest := by
  simp [issue, h]

theorem issue_line {ph : Phase} {text : Text} {i : Instr} {more : List Instr} {d : Bool} (rest : List HostItem)
    (h : decodeLine text = .ok ⟨i :: more, d⟩) :
    issue ph (.line text :: rest) = .run i (more.map .op ++ expansionTail d rest) := by
  simp [issue, h]

theorem issue_word_bad {ph : Phase} {bs : List Byte} {e : DecodeError} (rest : List HostItem)
    (h : decodeRaw bs = .error e) : issue ph (.word bs :: rest) = .bad e := by
  simp [issue, h]

theorem issue_line_bad {ph : Phase} {text : Text} {e : DecodeError} (rest : List HostItem)
    (h : decodeLine text = .error e) : issue ph (.line text :: rest) = .bad e := by
  simp [issue, h]

/-- A line of no operation: with a DRAIN it acts as that entry, without one it is passed over. -/
theorem issue_line_nil {ph : Phase} {text : Text} {d : Bool} (rest : List HostItem)
    (h : decodeLine text = .ok ⟨[], d⟩) :
    issue ph (.line text :: rest) = issue ph (if d = true then .drain :: rest else rest) := by
  cases d <;> cases ph <;> simp [issue, h]

end Sys2Proof.Machine
end

