-- ==== Sys2Proof/Laws/Meanings.lean ====
section
/-! SUPPORT. Everything an instruction can do when it answers a next state, said once per instruction (`Effect`,
`exec_next`), and where it stops. Whole-machine proofs go through these and never unfold a meaning. -/

namespace Sys2Proof.Machine

/-- A report only a format row leaves. -/
def FormatReport : Report → Prop
  | .bytes _ => True
  | .record _ => True
  | _ => False

/-- What PUSH does to a state whose FSD has no fault (R126). -/
def PushEffect (b : Byte) (s t : State) : Prop :=
  (∃ rev fw hdr, s.fsd.rev = some rev ∧ s.fsd.fw = some fw ∧ s.fsd.hdr = some hdr ∧
    { s with fsd := takeByte fw hdr (logicalByte rev b) s.fsd, report := .done } = t) ∨
  ((s.fsd.rev = none ∨ s.fsd.fw = none ∨ s.fsd.hdr = none) ∧ raiseFsd .fsdUnconfigured s = t)

/-- What STEP does to a state whose WSQ has no fault (R184). -/
def StepEffect (p : Params) (s t : State) : Prop :=
  ∃ job len, s.wsq.phase = .run ∧ s.wsq.job = some job ∧ s.wsq.jobLen = some len ∧ s.wsq.pos < jobLength job ∧
    { s with wsq := emitByte (byteAt p job s.wsq.pos) len s.wsq, report := .done } = t

/-- What LEN does to a state whose WSQ has no fault (R186). -/
def LenEffect (s t : State) : Prop :=
  (∃ hi lo, s.wsq.lenHi = some hi ∧ s.wsq.lenLo = some lo ∧
    { s with report := .lenPair hi lo, lenReads := s.lenReads ++ [(hi, lo)] } = t) ∨
  ((s.wsq.lenHi = none ∨ s.wsq.lenLo = none) ∧ raiseWsq .wsqLenUnset s = t)

/-- The next state of each instruction. -/
def Effect (i : Instr) (s t : State) : Prop :=
  match i with
  | .config rev fw hdr =>
    s.fsd.fault = none ∧
      ((∃ c, configRefusal s.fsd.mode fw = some c ∧ refuse c s = t) ∨
        (s.fsd.mode = .hunt ∧ fwLegal fw = true ∧ configure rev fw hdr s = t))
  | .configChips rev fw n =>
    s.fsd.fault = none ∧
      ((∃ c, configChipsRefusal s.fsd.mode fw n = some c ∧ refuse c s = t) ∨
        (s.fsd.mode = .hunt ∧ fwLegal fw = true ∧ nchipsLegal n = true ∧
          configure rev fw (hset n.toNat fw.toNat) s = t))
  | .push b => s.fsd.fault = none ∧ PushEffect b s t
  | .endBurst =>
    s.fsd.fault = none ∧ { s with fsd := { s.fsd with buf := [], mode := .hunt }, report := .done } = t
  | .gen job =>
    s.wsq.fault = none ∧
      ((∃ c, genRefusal s.wsq.phase job = some c ∧ refuse c s = t) ∨
        (s.wsq.phase = .idle ∧ jobLegal job = true ∧ { s with wsq := acceptJob job s.wsq, report := .done } = t))
  | .step => s.wsq.fault = none ∧ StepEffect params s t
  | .len => s.wsq.fault = none ∧ LenEffect s t
  | .reset =>
    { State.reset with report := .done, ended := s.ended ++ [observe s], pending := s.pending } = t
  | .fmtHdr _ _ | .fmtHit5 _ _ _ _ _ _ _ _ _ | .fmtHitN _ | .legData _ _ | .legPatGecco _ _ | .legPatAsic _ _
  | .legTrailer _ _ | .spiHdr _ _ | .spiBit _ | .spiLoad | .spiEmpty | .lenHdr _ =>
    ∃ r, FormatReport r ∧ { s with report := r } = t

/-! ### One inversion lemma per meaning -/

variable {s t : State}

theorem execConfig_next {rev : Bool} {fw : BitVec 4} {hdr : BitVec 256} :
    execConfig rev fw hdr s = .next t ↔ Effect (.config rev fw hdr) s t := by
  simp only [execConfig, fsdOperation_next, unlessRefused_next, configRefusal_none, Effect, and_assoc]
  simp

theorem execConfigChips_next {rev : Bool} {fw : BitVec 4} {n : BitVec 6} :
    execConfigChips rev fw n s = .next t ↔ Effect (.configChips rev fw n) s t := by
  simp only [execConfigChips, fsdOperation_next, unlessRefused_next, configChipsRefusal_none, Effect, and_assoc]
  simp

theorem execPush_next {b : Byte} : execPush b s = .next t ↔ Effect (.push b) s t := by
  simp only [execPush, fsdOperation_next, Effect, PushEffect]
  refine and_congr_right fun _ => ?_
  cases hr : s.fsd.rev <;> cases hf : s.fsd.fw <;> cases hh : s.fsd.hdr <;> simp

theorem execEnd_next : execEnd s = .next t ↔ Effect .endBurst s t := by
  simp [execEnd, fsdOperation_next, Effect]

theorem execGen_next {job : Job} : execGen job s = .next t ↔ Effect (.gen job) s t := by
  simp only [execGen, wsqOperation_next, unlessRefused_next, genRefusal_none, Effect, and_assoc]
  simp

theorem stepWith_next {p : Params} : stepWith p s = .next t ↔ s.wsq.fault = none ∧ StepEffect p s t := by
  simp only [stepWith, wsqOperation_next, StepEffect, jobByte]
  refine and_congr_right fun _ => ?_
  cases hp : s.wsq.phase
  · simp
  · cases hj : s.wsq.job with
    | none => simp
    | some job =>
      cases hl : s.wsq.jobLen with
      | none => simp
      | some len =>
        by_cases hlt : s.wsq.pos < jobLength job <;> simp [hlt]

theorem execStep_next : execStep s = .next t ↔ Effect .step s t := stepWith_next

theorem execLen_next : execLen s = .next t ↔ Effect .len s t := by
  simp only [execLen, wsqOperation_next, Effect, LenEffect]
  refine and_congr_right fun _ => ?_
  cases hi : s.wsq.lenHi <;> cases lo : s.wsq.lenLo <;> simp

theorem execReset_next : execReset s = .next t ↔ Effect .reset s t := by
  simp [execReset, Effect]

/-- A format row that goes on has left its report and nothing else. -/
theorem ifFormat_next {ok : Bool} {r : Report} (hr : FormatReport r)
    (h : ifFormat ok (fun s => .next { s with report := r }) s = .next t) :
    ∃ r, FormatReport r ∧ { s with report := r } = t := by
  unfold ifFormat at h
  split at h
  · exact ⟨r, hr, by simpa using h⟩
  · simp at h

/-- Once, for every instruction: what a next state is. -/
theorem exec_next {i : Instr} (h : exec i s = .next t) : Effect i s t := by
  cases i with
  | config rev fw hdr => exact execConfig_next.1 h
  | configChips rev fw n => exact execConfigChips_next.1 h
  | push b => exact execPush_next.1 h
  | endBurst => exact execEnd_next.1 h
  | gen job => exact execGen_next.1 h
  | step => exact execStep_next.1 h
  | len => exact execLen_next.1 h
  | reset => exact execReset_next.1 h
  | fmtHdr i w => exact ⟨.bytes [headerLayout i w], trivial, by simpa [exec, execFmtHdr, showBytes] using h⟩
  | fmtHit5 c p k r l t' e m n =>
    exact ⟨.record (frameRecord 5 (hit5Layout c p k r l t' e m n)), trivial,
      by simpa [exec, execFmtHit5, showRecord] using h⟩
  | fmtHitN raw => exact ifFormat_next (r := .record _) trivial h
  | legData v x => exact ⟨.bytes [legacyData params v x], trivial, by simpa [exec, execLegData, showBytes] using h⟩
  | legPatGecco x c => exact ifFormat_next (r := .bytes _) trivial h
  | legPatAsic x c => exact ifFormat_next (r := .bytes _) trivial h
  | legTrailer v c => exact ifFormat_next (r := .bytes _) trivial h
  | spiHdr tag ident => exact ⟨.bytes [spiHdrLayout tag ident], trivial, by simpa [exec, execSpiHdr, showBytes] using h⟩
  | spiBit x => exact ⟨.bytes [spiBitByte params x], trivial, by simpa [exec, execSpiBit, showBytes] using h⟩
  | spiLoad => exact ⟨.bytes [params.load], trivial, by simpa [exec, execSpiLoad, showBytes] using h⟩
  | spiEmpty => exact ⟨.bytes [params.empty], trivial, by simpa [exec, execSpiEmpty, showBytes] using h⟩
  | lenHdr len =>
    exact ⟨.bytes [(lenHdrLayout len).1, (lenHdrLayout len).2], trivial,
      by simpa [exec, execLenHdr, showBytes] using h⟩

end Sys2Proof.Machine
end

