-- ==== Sys2Proof/Laws/Fsd.lean ====
section
/-! SUPPORT. Bursts of logical bytes through the FSD, the source's decoder, header sets and frame records. -/

namespace Sys2Proof.Machine

/-! ### Header sets -/

/-- The members of HSET (40_frame_decoder.md R123). -/
theorem hset_getLsbD {n fw : Nat} (hn : n ≤ 32) (h1 : 1 ≤ fw) (h2 : fw ≤ 8) (k : Nat) :
    (hset n fw).getLsbD k = true ↔ ∃ i, i < n ∧ k = i * 8 + (fw - 1) := by
  rw [hset, byteSet_getLsbD, decide_eq_true_iff]
  constructor
  · rintro ⟨b, hb, rfl⟩
    obtain ⟨i, hi, rfl⟩ := List.mem_map.1 hb
    have hi := List.mem_range.1 hi
    refine ⟨i, hi, ?_⟩
    simp [headerValue, Nat.shiftLeft_eq, idBits]; omega
  · rintro ⟨i, hi, rfl⟩
    refine ⟨_, List.mem_map.2 ⟨i, List.mem_range.2 hi, rfl⟩, ?_⟩
    simp [headerValue, Nat.shiftLeft_eq, idBits]; omega

/-! ### Records and the frame in progress -/

theorem collectOk_iff {f : Fsd} :
    collectOk f = true ↔
      ∃ fw hdr b rest, f.fw = some fw ∧ f.hdr = some hdr ∧ f.buf = b :: rest ∧ rest.length + 1 ≤ fw.toNat - 1 ∧
        isHdr hdr b = true := by
  unfold collectOk
  split <;> simp_all

theorem recordOk {fw : BitVec 4} {buf : List Byte} (h : fwLegal fw = true) (hl : buf.length = fw.toNat) :
    RecordOk (frameRecord fw buf) := by
  obtain ⟨h1, h2⟩ := fwLegal_iff.1 h
  refine ⟨by simp; omega, by show _ ≤ 8; simp; omega, ?_⟩
  have : (fw = 5#4) ↔ buf.length = 5 := by rw [hl]; bv_omega
  by_cases hb : buf.length = 5 <;> simp [hb, this]

/-! ### Bursts -/

section
variable {rev : Bool} {fw : BitVec 4} {hdr : BitVec 256}

/-- The FSD after a burst of raw bytes under a configuration. -/
def feed (rev : Bool) (fw : BitVec 4) (hdr : BitVec 256) (raw : List Byte) (f : Fsd) : Fsd :=
  raw.foldl (fun f b => takeByte fw hdr (logicalByte rev b) f) f

@[simp] theorem feed_nil (f : Fsd) : feed rev fw hdr [] f = f := rfl

theorem feed_cons (b : Byte) (raw : List Byte) (f : Fsd) :
    feed rev fw hdr (b :: raw) f = feed rev fw hdr raw (takeByte fw hdr (logicalByte rev b) f) := rfl

theorem feed_append (a b : List Byte) (f : Fsd) :
    feed rev fw hdr (a ++ b) f = feed rev fw hdr b (feed rev fw hdr a f) := by
  simp [feed]

/-- PUSHes one after another, under a whole configuration. -/
theorem execAll_push (raw : List Byte) (rest : List Instr) (s : State) (h0 : s.fsd.fault = none)
    (h1 : s.fsd.rev = some rev) (h2 : s.fsd.fw = some fw) (h3 : s.fsd.hdr = some hdr) (hr : s.report = .done) :
    execAll (raw.map .push ++ rest) s = execAll rest { s with fsd := feed rev fw hdr raw s.fsd } := by
  induction raw generalizing s with
  | nil => rfl
  | cons b raw ih =>
    have key : exec (.push b) s = .next { s with fsd := takeByte fw hdr (logicalByte rev b) s.fsd } :=
      execPush_next.2 ⟨h0, .inl ⟨rev, fw, hdr, h1, h2, h3, by rw [← hr]⟩⟩
    obtain ⟨f1, f2, f3, f4⟩ := takeByte_frame fw hdr (logicalByte rev b) s.fsd
    simp only [List.map_cons, List.cons_append, execAll, key]
    exact ih _ (f4.trans h0) (f1.trans h1) (f2.trans h2) (f3.trans h3) hr

/-- Body bytes that do not complete the frame. -/
theorem feed_collect (raw : List Byte) (f : Fsd) (hm : f.mode = .collect)
    (hl : f.buf.length + raw.length < fw.toNat) :
    feed rev fw hdr raw f = { f with buf := f.buf ++ raw.map (logicalByte rev) } := by
  induction raw generalizing f with
  | nil => simp
  | cons b raw ih =>
    simp only [List.length_cons] at hl
    rw [feed_cons, takeByte_extend hm (by omega), ih _ rfl (by simp; omega)]
    simp [hm]

/-- A header byte and the body bytes that complete its frame. -/
theorem feed_frame (b : Byte) (raw : List Byte) (f : Fsd) (hm : f.mode = .hunt)
    (hh : isHdr hdr (logicalByte rev b) = true) (hl : 1 + raw.length = fw.toNat) :
    feed rev fw hdr (b :: raw) f =
      { f with
        buf := []
        mode := .hunt
        frames := f.frames ++ [frameRecord fw ((b :: raw).map (logicalByte rev))] } := by
  cases raw using List.reverseRecOn with
  | nil =>
    have hw : fw = 1#4 := by simp only [List.length_nil] at hl; bv_omega
    rw [feed_cons, takeByte_single hm hh hw]
    rfl
  | append_singleton raw c =>
    simp only [List.length_append, List.length_singleton] at hl
    have hw : fw ≠ 1#4 := by rintro rfl; simp at hl
    rw [feed_cons, takeByte_start hm hh hw, feed_append, feed_collect raw _ rfl (by simp; omega), feed_cons,
      takeByte_complete rfl (by simp; omega)]
    simp

end

/-! ### The source's decoder -/

theorem refScan_junk {hdr : BitVec 256} {fw fuel : Nat} (junk rest : List Byte)
    (hj : ∀ x ∈ junk, isHdr hdr x = false) :
    refScan fw hdr (junk.length + fuel) (junk ++ rest) = refScan fw hdr fuel rest := by
  induction junk with
  | nil => simp
  | cons x junk ih =>
    have hx := hj x (by simp)
    have := ih (fun y hy => hj y (by simp [hy]))
    rw [List.length_cons, Nat.succ_add, List.cons_append, refScan]
    simp [hx, this]

/-- Every frame the source's decoder finds has the width in force and starts with a header. -/
theorem refScan_shape {fw : Nat} (hfw : 1 ≤ fw) (hdr : BitVec 256) (fuel : Nat) (l : List Byte) :
    ∀ r ∈ refScan fw hdr fuel l, r.length = fw ∧ ∃ v, r.head? = some v ∧ isHdr hdr v = true := by
  induction fuel generalizing l with
  | zero => simp [refScan]
  | succ fuel ih =>
    cases l with
    | nil => simp [refScan]
    | cons v l =>
      intro r hr
      simp only [refScan] at hr
      split at hr
      · split at hr
        · rename_i hv hl
          rcases List.mem_cons.1 hr with rfl | hr
          · refine ⟨by simp at hl ⊢; omega, v, ?_, hv⟩
            obtain ⟨n, rfl⟩ : ∃ n, fw = n + 1 := ⟨fw - 1, by omega⟩
            simp
          · exact ih _ r hr
        · simp at hr
      · exact ih _ r hr

/-- A burst from HUNT emits the frames the source's scan finds; what is left over stays in the buffer. -/
theorem feed_scan {rev : Bool} {fw : BitVec 4} {hdr : BitVec 256} (h1 : 1 ≤ fw.toNat) (fuel : Nat) (raw : List Byte)
    (hfuel : raw.length ≤ fuel) (f : Fsd) (hm : f.mode = .hunt) :
    ∃ buf mode, feed rev fw hdr raw f =
      { f with
        buf := buf
        mode := mode
        frames := f.frames ++ (refScan fw.toNat hdr fuel (raw.map (logicalByte rev))).map (frameRecord fw) } := by
  induction fuel generalizing raw f with
  | zero =>
    obtain rfl : raw = [] := by simpa using hfuel
    exact ⟨f.buf, f.mode, by simp [refScan]⟩
  | succ fuel ih =>
    cases raw with
    | nil => exact ⟨f.buf, f.mode, by simp [refScan]⟩
    | cons b raw =>
      simp only [List.length_cons] at hfuel
      cases hh : isHdr hdr (logicalByte rev b)
      · obtain ⟨buf, mode, e⟩ := ih raw (by omega) f hm
        exact ⟨buf, mode, by rw [feed_cons, takeByte_skip hm hh, e]; simp [refScan, hh]⟩
      · by_cases hl : fw.toNat ≤ raw.length + 1
        · obtain ⟨n, hn⟩ : ∃ n, fw.toNat = n + 1 := ⟨fw.toNat - 1, by omega⟩
          have hl' : n ≤ raw.length := by omega
          have hsplit : b :: raw = (b :: raw.take n) ++ raw.drop n := by simp
          have e1 := feed_frame (fw := fw) b (raw.take n) f hm hh (by simp; omega)
          obtain ⟨buf, mode, e⟩ :=
            ih (raw.drop n) (by simp; omega) (feed rev fw hdr (b :: raw.take n) f) (by rw [e1])
          refine ⟨buf, mode, ?_⟩
          rw [hsplit, feed_append, e, e1]
          simp [refScan, hh, hn, hl']
        · have hw : fw ≠ 1#4 := by rintro rfl; simp at hl
          refine ⟨[logicalByte rev b] ++ raw.map (logicalByte rev), .collect, ?_⟩
          rw [feed_cons, takeByte_start hm hh hw, feed_collect raw _ rfl (by simp; omega)]
          simp [refScan, hh, hl]

end Sys2Proof.Machine
end

