-- ==== Sys2Proof/Laws/PerInstr.lean ====
section
/-! SUPPORT. The family TokensClean, one lemma per constructor of Instr: every token the encoder writes is
non-empty and holds no blank, no semicolon and no end of line, so that a line reads back as its tokens. -/

namespace Sys2Proof.Laws.TokensClean

/-- Every token of the instruction's line reads back as one token. -/
def Statement (i : Instr) : Prop := ∀ t ∈ encodeTokens i, CleanToken t

/-! ### Tokens of one operand -/

/-- Character by character, for a token written out. -/
def cleanText (t : Text) : Bool := !t.isEmpty && t.all cleanChar

theorem clean_of_text {t : Text} (h : cleanText t = true) : CleanToken t := by
  simp only [cleanText, Bool.and_eq_true, Bool.not_eq_true', List.all_eq_true] at h
  exact ⟨by simpa using h.1, h.2⟩

theorem clean_nat (n : Nat) : CleanToken (natText n) := ⟨natText_ne_nil n, fun c hc => (decDigits_clean c hc).1⟩

theorem clean_byte (b : Byte) : CleanToken (byteText b) :=
  ⟨by simp [byteText, chars], fun c hc => (byteText_clean b c hc).1⟩

theorem clean_bool (b : Bool) : CleanToken (boolText b) := clean_of_text (by cases b <;> rfl)

theorem clean_variant (v : Variant) : CleanToken (variantText v) := clean_of_text (by cases v <;> rfl)

theorem clean_name (r : Row) : CleanToken r.name := clean_of_text (by cases r <;> rfl)

theorem clean_vec (vec : List Bool) : CleanToken (vecText vec) := by
  refine ⟨by simp [vecText], fun c hc => ?_⟩
  rcases List.mem_cons.1 hc with rfl | hc
  · rfl
  · obtain ⟨x, -, rfl⟩ := List.mem_map.1 hc
    cases x <;> rfl

theorem clean_append {a : Text} {v : Text} (ha : cleanText a = true) (hv : ∀ c ∈ v, cleanChar c = true) :
    CleanToken (a ++ v) := by
  obtain ⟨h0, h⟩ := clean_of_text ha
  refine ⟨by simp [h0], fun c hc => ?_⟩
  rcases List.mem_append.1 hc with hc | hc
  · exact h c hc
  · exact hv c hc

theorem clean_target (t : Target) : CleanToken (targetText t) := by
  cases t with
  | bcast => exact clean_of_text rfl
  | chip c =>
    have h : targetText (.chip c) = (kChip ++ [0x3A#8]) ++ natText c.toNat := by simp [targetText]
    rw [h]
    exact clean_append rfl (clean_nat _).2

theorem clean_field {key v : Text} (hk : cleanText (key ++ [0x3D#8]) = true) (hv : ∀ c ∈ v, cleanChar c = true) :
    CleanToken (fieldText key v) := by
  have h : fieldText key v = (key ++ [0x3D#8]) ++ v := by simp [fieldText]
  rw [h]
  exact clean_append hk hv

theorem clean_byteList {o c : Byte} (ho : cleanChar o = true) (hc : cleanChar c = true) (bs : List Byte) :
    CleanToken (byteListText o c bs) := by
  refine ⟨by simp [byteListText], fun d hd => ?_⟩
  simp only [byteListText, List.mem_cons, List.mem_append, List.not_mem_nil, or_false] at hd
  rcases hd with rfl | hd | rfl
  · exact ho
  · rcases mem_joinWith hd with rfl | ⟨t, ht, hdt⟩
    · rfl
    · obtain ⟨b, -, rfl⟩ := List.mem_map.1 ht
      exact (byteText_clean b d hdt).1
  · exact hc

theorem clean_opt {key : Text} (hk : cleanText (key ++ [0x3D#8]) = true) (n : Nat) :
    ∀ t ∈ optText key n, CleanToken t := by
  unfold optText
  split
  · simp
  · intro t ht
    obtain rfl := List.mem_singleton.1 ht
    exact clean_field hk (clean_nat n).2

theorem clean_optVariant (v : Variant) : ∀ t ∈ optVariantText v, CleanToken t := by
  cases v
  · simp [optVariantText]
  · intro t ht
    obtain rfl := List.mem_singleton.1 ht
    exact clean_of_text rfl

/-- The tokens of a job are clean. -/
theorem clean_job (j : Job) : ∀ t ∈ jobTokens j, CleanToken t := by
  intro t ht
  unfold jobTokens at ht
  cases hp : j.proto with
  | legacy =>
    simp only [hp, List.mem_append, List.mem_cons, List.not_mem_nil, or_false] at ht
    rcases ht with ((((rfl | rfl | rfl | rfl) | h) | h) | h) | rfl
    · exact clean_of_text rfl
    · exact clean_field rfl (clean_variant _).2
    · exact clean_field rfl (clean_nat _).2
    · exact clean_field rfl (clean_bool _).2
    · exact clean_opt rfl _ _ h
    · exact clean_opt rfl _ _ h
    · exact clean_opt rfl _ _ h
    · exact clean_field rfl (clean_vec _).2
  | spi =>
    simp only [hp, List.mem_append, List.mem_cons, List.not_mem_nil, or_false] at ht
    rcases ht with ((((((rfl | rfl) | h) | h) | h) | rfl) | h) | rfl
    · exact clean_of_text rfl
    · exact clean_field rfl (clean_target _).2
    · exact clean_optVariant _ _ h
    · exact clean_opt rfl _ _ h
    · split at h
      · exact clean_opt rfl _ _ h
      · simp at h
    · exact clean_field rfl (clean_bool _).2
    · split at h
      · obtain rfl := List.mem_singleton.1 h
        exact clean_field rfl (clean_nat _).2
      · exact clean_opt rfl _ _ h
    · exact clean_field rfl (clean_vec _).2

/-- The name is clean, so the operands decide. -/
theorem of_operands {i : Instr} (h : ∀ t ∈ operandTokens i, CleanToken t) : Statement i := by
  intro t ht
  rcases List.mem_cons.1 ht with rfl | ht
  · exact clean_name _
  · exact h t ht

/-! ### One lemma per constructor -/

theorem config (rev : Bool) (fw : BitVec 4) (hdr : BitVec 256) : Statement (.config rev fw hdr) :=
  of_operands <| by
    simp only [operandTokens, List.forall_mem_cons]
    exact ⟨clean_field rfl (clean_bool _).2, clean_field rfl (clean_nat _).2,
      clean_field rfl (clean_byteList rfl rfl _).2, by simp⟩

theorem configChips (rev : Bool) (fw : BitVec 4) (nchips : BitVec 6) : Statement (.configChips rev fw nchips) :=
  of_operands <| by
    simp only [operandTokens, List.forall_mem_cons]
    exact ⟨clean_field rfl (clean_bool _).2, clean_field rfl (clean_nat _).2, clean_field rfl (clean_nat _).2, by simp⟩

theorem push (b : Byte) : Statement (.push b) :=
  of_operands <| by
    simp only [operandTokens, List.forall_mem_cons]
    exact ⟨clean_byte b, by simp⟩

theorem endBurst : Statement .endBurst := of_operands (by simp [operandTokens])

theorem gen (job : Job) : Statement (.gen job) := of_operands (clean_job job)

theorem step : Statement .step := of_operands (by simp [operandTokens])

theorem len : Statement .len := of_operands (by simp [operandTokens])

theorem reset : Statement .reset := of_operands (by simp [operandTokens])

theorem fmtHdr (i : BitVec 5) (w : BitVec 3) : Statement (.fmtHdr i w) :=
  of_operands <| by
    simp only [operandTokens, List.forall_mem_cons]
    exact ⟨clean_field rfl (clean_nat _).2, clean_field rfl (clean_nat _).2, by simp⟩

theorem fmtHit5 (c : BitVec 5) (p : BitVec 3) (k : BitVec 1) (r : BitVec 1) (l : BitVec 6) (t : BitVec 8)
    (e : BitVec 4) (m : BitVec 4) (n : BitVec 8) : Statement (.fmtHit5 c p k r l t e m n) :=
  of_operands <| by
    simp only [operandTokens, List.forall_mem_cons]
    exact ⟨clean_field rfl (clean_nat _).2, clean_field rfl (clean_nat _).2, clean_field rfl (clean_nat _).2,
      clean_field rfl (clean_nat _).2, clean_field rfl (clean_nat _).2, clean_field rfl (clean_nat _).2,
      clean_field rfl (clean_nat _).2, clean_field rfl (clean_nat _).2, clean_field rfl (clean_nat _).2, by simp⟩

theorem fmtHitN (raw : List Byte) : Statement (.fmtHitN raw) :=
  of_operands <| by
    simp only [operandTokens, List.forall_mem_cons]
    exact ⟨clean_field rfl (clean_byteList rfl rfl _).2, by simp⟩

theorem legData (v : Variant) (x : Bool) : Statement (.legData v x) :=
  of_operands <| by
    simp only [operandTokens, List.forall_mem_cons]
    exact ⟨clean_field rfl (clean_variant _).2, clean_field rfl (clean_bool _).2, by simp⟩

theorem legPatGecco (x : Bool) (c : Nat) : Statement (.legPatGecco x c) :=
  of_operands <| by
    simp only [operandTokens, List.forall_mem_cons]
    exact ⟨clean_field rfl (clean_bool _).2, clean_field rfl (clean_nat _).2, by simp⟩

theorem legPatAsic (x : Bool) (c : Nat) : Statement (.legPatAsic x c) :=
  of_operands <| by
    simp only [operandTokens, List.forall_mem_cons]
    exact ⟨clean_field rfl (clean_bool _).2, clean_field rfl (clean_nat _).2, by simp⟩

theorem legTrailer (v : Variant) (c : Nat) : Statement (.legTrailer v c) :=
  of_operands <| by
    simp only [operandTokens, List.forall_mem_cons]
    exact ⟨clean_field rfl (clean_variant _).2, clean_field rfl (clean_nat _).2, by simp⟩

theorem spiHdr (tag : BitVec 3) (id : BitVec 5) : Statement (.spiHdr tag id) :=
  of_operands <| by
    simp only [operandTokens, List.forall_mem_cons]
    exact ⟨clean_field rfl (clean_nat _).2, clean_field rfl (clean_nat _).2, by simp⟩

theorem spiBit (x : Bool) : Statement (.spiBit x) :=
  of_operands <| by
    simp only [operandTokens, List.forall_mem_cons]
    exact ⟨clean_field rfl (clean_bool _).2, by simp⟩

theorem spiLoad : Statement .spiLoad := of_operands (by simp [operandTokens])

theorem spiEmpty : Statement .spiEmpty := of_operands (by simp [operandTokens])

theorem lenHdr (n : BitVec 16) : Statement (.lenHdr n) :=
  of_operands <| by
    simp only [operandTokens, List.forall_mem_cons]
    exact ⟨clean_field rfl (clean_nat _).2, by simp⟩

end Sys2Proof.Laws.TokensClean
end

