-- ==== Sys2Proof/Laws/Waveform.lean ====
section
/-! SUPPORT. The parts of a job's wave: their lengths and their bytes at an index, and the GPIO lines. -/

namespace Sys2Proof.Machine

/-! ### Lists built part by part -/

theorem flatMap_length {α β : Type} (f : α → List β) (m : Nat) (hm : ∀ x, (f x).length = m) (l : List α) :
    (l.flatMap f).length = l.length * m := by
  induction l with
  | nil => simp
  | cons a l ih => simp [List.flatMap_cons, ih, hm, Nat.succ_mul, Nat.add_comm]

theorem flatMap_getElem? {α β : Type} (f : α → List β) (m : Nat) (hm : ∀ x, (f x).length = m) (h0 : 0 < m)
    (l : List α) (t : Nat) :
    (l.flatMap f)[t]? = (l[t / m]?).bind fun x => (f x)[t % m]? := by
  induction l generalizing t with
  | nil => simp
  | cons a l ih =>
    by_cases h : t < m
    · simp [List.getElem?_append, hm, h, Nat.div_eq_of_lt h, Nat.mod_eq_of_lt h]
    · obtain ⟨u, rfl⟩ := Nat.exists_eq_add_of_le (Nat.le_of_not_lt h)
      simp [List.getElem?_append, hm, ih, Nat.add_div_left _ h0]

/-! ### Parts of the wave -/

@[simp] theorem rep_length (x : Byte) (k : Nat) : (rep x k).length = k := by simp [rep]

theorem pattern_length (p : Params) (v : Variant) (x : Bool) : (pattern p v x).length = patLen v := by
  cases v <;> rfl

theorem stretch_length (c : Nat) (bs : List Byte) : (stretch c bs).length = bs.length * c :=
  flatMap_length _ c (fun _ => rep_length _ _) bs

theorem stretch_getElem? {c : Nat} (hc : 1 ≤ c) (bs : List Byte) (t : Nat) : (stretch c bs)[t]? = bs[t / c]? := by
  rw [stretch, flatMap_getElem? _ c (fun _ => rep_length _ _) hc]
  cases bs[t / c]? <;> simp [rep, Nat.mod_lt _ hc]

theorem legacyBody_length (p : Params) (job : Job) :
    (legacyBody p job).length = job.vec.length * (patLen job.variant * job.clkdiv) :=
  flatMap_length _ _ (fun x => by rw [stretch_length, pattern_length]) _

theorem legalParams_loadPre {p : Params} (hp : LegalParams p) {v : Variant} {c : Nat} (hc : 1 ≤ c) :
    1 ≤ p.loadPre v c ∧ p.loadPre v c ≤ (trailerUnits v - loadHigh) * c - 1 := hp.2.2.2.1 v c hc

/-- The load trailer of a legal instance is T_v*C bytes (30_encoding.md R88). -/
theorem trailer_length {p : Params} (hp : LegalParams p) {v : Variant} {c : Nat} (hc : 1 ≤ c) :
    (trailer p v c).length = trailerUnits v * c := by
  have := legalParams_loadPre hp (v := v) hc
  cases v <;> simp [trailer, trailerUnits, loadHigh] at * <;> omega

theorem pattern_getElem? (p : Params) (v : Variant) (x : Bool) {j : Nat} (hj : j < patLen v) :
    (pattern p v x)[j]? = some ((pattern p v x).getD j 0) := by
  rw [← pattern_length p v x] at hj
  simp [hj]

/-- The byte of the load trailer at an index (41_waveform.md R182). -/
theorem trailer_getElem? {p : Params} (hp : LegalParams p) {v : Variant} {c u : Nat} (hc : 1 ≤ c)
    (hu : u < trailerUnits v * c) :
    (trailer p v c)[u]? =
      some (if p.loadPre v c ≤ u ∧ u < p.loadPre v c + loadHigh * c then p.ld v else 0x00#8) := by
  have hb := legalParams_loadPre hp (v := v) hc
  simp only [trailer, List.append_assoc, List.getElem?_append, rep, List.length_replicate,
    List.getElem?_replicate]
  have hT : (trailerUnits v - loadHigh) * c + loadHigh * c = trailerUnits v * c := by
    rw [← Nat.add_mul]; cases v <;> rfl
  split
  · simp; omega
  · split
    · simp; omega
    · have : u - p.loadPre v c - loadHigh * c < (trailerUnits v - loadHigh) * c - p.loadPre v c := by omega
      simp [this]; omega

/-! ### GPIO lines -/

theorem oneLine_lineMask (k : Fin 8) : oneLine (lineMask k) := ⟨k.val, k.isLt, rfl⟩

theorem lineMask_injective {a b : Fin 8} (h : lineMask a = lineMask b) : a = b := by
  revert a b; decide

theorem lineMask_perm_ne (e : Equiv.Perm (Fin 8)) {a b : Fin 8} (h : a ≠ b) : lineMask (e a) ≠ lineMask (e b) :=
  fun hab => h (e.injective (lineMask_injective hab))

theorem byte_disjoint {a b : Byte} (ha : oneLine a) (hb : oneLine b) (h : a ≠ b) :
    a &&& b = 0#8 ∧ (a ||| b) ^^^ a = b := by
  obtain ⟨i, hi, rfl⟩ := ha
  obtain ⟨j, hj, rfl⟩ := hb
  revert i j
  decide

theorem mask_iff {a m : Byte} : a &&& ~~~m = 0#8 ↔ ∀ i (h : i < 8), a[i] = true → m[i] = true := by
  constructor
  · intro h i hi ha
    have h1 : (a &&& ~~~m)[i] = (0#8)[i] := by rw [h]
    simpa [ha] using h1
  · intro h
    ext i hi
    simpa using h i hi

theorem mask_or {a b m : Byte} (ha : a &&& ~~~m = 0#8) (hb : b &&& ~~~m = 0#8) : (a ||| b) &&& ~~~m = 0#8 := by
  rw [mask_iff] at *
  intro i hi h
  rw [BitVec.getElem_or, Bool.or_eq_true] at h
  exact h.elim (ha i hi) (hb i hi)

theorem mask_self {a m : Byte} : a &&& ~~~(a ||| m) = 0#8 := mask_iff.2 fun i hi h => by simp [h]

theorem mask_mono {a m n : Byte} (h : a &&& ~~~m = 0#8) : a &&& ~~~(m ||| n) = 0#8 :=
  mask_iff.2 fun i hi ha => by simp [mask_iff.1 h i hi ha]

theorem mask_right {a m : Byte} : a &&& ~~~(m ||| a) = 0#8 := mask_iff.2 fun i hi h => by simp [h]

end Sys2Proof.Machine
end

