-- ==== Sys2Proof/Tests/Slice0.lean ====
section
/-! SUPPORT. Tests. Expected values come from spec/95_test_vectors.md (the vector is named at each test) or from
the layouts of spec/30_encoding.md worked out by hand; the witnesses show, for every statement with hypotheses, a
state and operands that meet them. -/

namespace Sys2Proof.Tests

open Sys2Proof.Machine

/-! ### Small states -/

/-- The illustrative parameter set PX of 41_waveform.md; not the hardware's values. -/
def px : Params where
  sin _ := 0x10
  ck1 _ := 0x20
  ck2 := 0x40
  ld _ := 0x80
  loadPre v c := match v with | .gecco => 5 * c | .asic => 10 * c
  tagBcast := 7
  tagRouted := 5
  bcastId := 31
  bit0 := 0xB0
  bit1 := 0xB1
  load := 0xCC
  empty := 0xEE

/-- PX is legal (41_waveform.md R170). -/
theorem px_legal : LegalParams px := by
  refine ⟨⟨fun v => ⟨4, by decide, rfl⟩, fun v => ⟨5, by decide, rfl⟩, fun v => ⟨7, by decide, rfl⟩,
      ⟨6, by decide, rfl⟩⟩,
    fun v => by cases v <;> decide, by decide, fun v c hc => ?_, by decide, by decide⟩
  cases v <;> simp [px, trailerUnits, loadHigh] <;> omega

/-- A legacy job. -/
def leg (v : Variant) (clkdiv : Nat) (load : Bool) (vec : List Bool) : Job where
  proto := .legacy
  variant := v
  clkdiv := clkdiv
  load := load
  bcast := false
  chip := 0
  nload := 0
  vec := vec

/-- A SPI job. -/
def spi (bcast : Bool) (chip : BitVec 6) (load : Bool) (nload : Nat) (vec : List Bool) : Job where
  proto := .spi
  variant := .gecco
  clkdiv := 0
  load := load
  bcast := bcast
  chip := chip
  nload := nload
  vec := vec

/-- The state after reset with an FSD under a configuration. -/
def fsdAt (rev : Bool) (fw : BitVec 4) (hdr : BitVec 256) (mode : FsdMode) (buf : List Byte) : State :=
  { State.reset with
    fsd := { State.reset.fsd with rev := some rev, fw := some fw, hdr := some hdr, mode := mode, buf := buf } }

/-- The state after reset with a WSQ that has emitted pos bytes of a job. -/
def wsqAt (job : Job) (pos : Nat) : State :=
  { State.reset with
    wsq :=
      { State.reset.wsq with
        job := some job
        jobLen := some (jobLength job)
        pos := pos
        phase := phaseAfterStep pos (jobLength job)
        lenHi := (headerOf (some job)).1
        lenLo := (headerOf (some job)).2 } }

/-- The state after reset with both fault registers set and REFUSED set. -/
def broken : State :=
  { State.reset with
    fsd := { State.reset.fsd with fault := some .fsdUnconfigured }
    wsq := { State.reset.wsq with fault := some .wsqLenUnset }
    refused := true }

/-- A FSD with a frame in progress and an empty WSQ. -/
def collecting : State := fsdAt false 5 (byteSet [0x04]) .collect [0x04, 0x01, 0x02, 0x03]

/-- A fact about the next state, false where there is none. -/
def after (r : Result) (p : State → Bool) : Bool :=
  match r with
  | .next t => p t
  | .fault _ => false
  | .refused _ => false

/-! ### WellFormed: one ill-formed term for each check -/

theorem test_wf_hitN_empty : (Instr.fmtHitN []).wellFormed = false := by decide
theorem test_wf_hitN_five : (Instr.fmtHitN [1, 2, 3, 4, 5]).wellFormed = false := by decide
theorem test_wf_hitN_nine : (Instr.fmtHitN [1, 2, 3, 4, 5, 6, 7, 8, 9]).wellFormed = false := by decide
theorem test_wf_hitN_eight : (Instr.fmtHitN [1, 2, 3, 4, 5, 6, 7, 8]).wellFormed = true := by decide
theorem test_wf_gecco_divider : (Instr.legPatGecco true 0).wellFormed = false := by decide
theorem test_wf_asic_divider : (Instr.legPatAsic true 0).wellFormed = false := by decide
theorem test_wf_trailer_divider : (Instr.legTrailer .gecco 0).wellFormed = false := by decide

/-! ### Decoding: one line, written out, for every constructor (R102; format rows: log 7) -/

theorem test_decode_config :
    decodeInstr (chars ['C', 'O', 'N', 'F', 'I', 'G', ' ', 'r', 'e', 'v', '=', '1', ' ', 'f', 'w', '=', '8', ' ', 'h', 'd', 'r', '=']
        ++ [0x7B#8]
        ++ chars ['0', 'x', '0', '7']
        ++ [0x7D#8]) =
      .ok (.config true 8 (BitVec.twoPow 256 7)) := by
  decide

theorem test_decode_configChips :
    decodeInstr (chars ['C', 'O', 'N', 'F', 'I', 'G', '_', 'C', 'H', 'I', 'P', 'S', ' ', 'r', 'e', 'v', '=', '0', ' ', 'f',
      'w', '=', '5', ' ', 'n', 'c', 'h', 'i', 'p', 's', '=', '3', '3']) =
      .ok (.configChips false 5 33) := by
  decide

theorem test_decode_push :
    decodeInstr (chars ['P', 'U', 'S', 'H', ' ', '0', 'x', '0', '4']) =
      .ok (.push 0x04) := by
  decide

theorem test_decode_end :
    decodeInstr (chars ['E', 'N', 'D', ' ', ';', ' ', 'c', 'o', 'm', 'm', 'e', 'n', 't']) =
      .ok (.endBurst) := by
  decide

theorem test_decode_gen_legacy :
    decodeInstr (chars ['G', 'E', 'N', ' ', 'l', 'e', 'g', 'a', 'c', 'y', ' ', 'v', 'a', 'r', 'i', 'a', 'n', 't', '=', 'a',
      's', 'i', 'c', ' ', 'c', 'l', 'k', 'd', 'i', 'v', '=', '2', ' ', 'l', 'o', 'a', 'd', '=', '1', ' ',
      'v', 'e', 'c', '=', 'b', '1', '0']) =
      .ok (.gen (leg .asic 2 true [true, false])) := by
  decide

theorem test_decode_gen_spi :
    decodeInstr (chars ['G', 'E', 'N', ' ', 's', 'p', 'i', ' ', 't', 'a', 'r', 'g', 'e', 't', '=', 'b', 'c', 'a', 's', 't',
      ' ', 'l', 'o', 'a', 'd', '=', '1', ' ', 'n', 'l', 'o', 'a', 'd', '=', '2', ' ', 'v', 'e', 'c', '=',
      'b', '1', '0', '1']) =
      .ok (.gen (spi true 0 true 2 [true, false, true])) := by
  decide

theorem test_decode_step :
    decodeInstr (chars ['S', 'T', 'E', 'P']) =
      .ok (.step) := by
  decide

theorem test_decode_len :
    decodeInstr (chars ['L', 'E', 'N']) =
      .ok (.len) := by
  decide

theorem test_decode_reset :
    decodeInstr (chars ['R', 'E', 'S', 'E', 'T']) =
      .ok (.reset) := by
  decide

theorem test_decode_fmtHdr :
    decodeInstr (chars ['F', 'M', 'T', '-', 'H', 'D', 'R', ' ', 'i', '=', '1', ' ', 'w', '=', '4']) =
      .ok (.fmtHdr 1 4) := by
  decide

theorem test_decode_fmtHit5 :
    decodeInstr (chars ['F', 'M', 'T', '-', 'H', 'I', 'T', '5', ' ', 'c', '=', '0', ' ', 'p', '=', '4', ' ', 'k', '=', '1',
      ' ', 'r', '=', '0', ' ', 'l', '=', '5', ' ', 't', '=', '6', '0', ' ', 'e', '=', '0', ' ', 'm', '=',
      '1', '0', ' ', 'n', '=', '0', 'x', 'B', 'C']) =
      .ok (.fmtHit5 0 4 1 0 5 60 0 10 0xBC) := by
  decide

theorem test_decode_fmtHitN :
    decodeInstr (chars ['F', 'M', 'T', '-', 'H', 'I', 'T', 'N', ' ', 'r', 'a', 'w', '=', '[', '0', 'x', '0', '1', ',', '0',
      'x', '0', '2', ']']) =
      .ok (.fmtHitN [1, 2]) := by
  decide

theorem test_decode_legData :
    decodeInstr (chars ['L', 'E', 'G', '-', 'D', 'A', 'T', 'A', ' ', 'v', 'a', 'r', 'i', 'a', 'n', 't', '=', 'a', 's', 'i',
      'c', ' ', 'x', '=', '1']) =
      .ok (.legData .asic true) := by
  decide

theorem test_decode_legPatGecco :
    decodeInstr (chars ['L', 'E', 'G', '-', 'P', 'A', 'T', '-', 'G', 'E', 'C', 'C', 'O', ' ', 'x', '=', '0', ' ', 'c', 'l',
      'k', 'd', 'i', 'v', '=', '3']) =
      .ok (.legPatGecco false 3) := by
  decide

theorem test_decode_legPatAsic :
    decodeInstr (chars ['L', 'E', 'G', '-', 'P', 'A', 'T', '-', 'A', 'S', 'I', 'C', ' ', 'x', '=', '1', ' ', 'c', 'l', 'k',
      'd', 'i', 'v', '=', '1']) =
      .ok (.legPatAsic true 1) := by
  decide

theorem test_decode_legTrailer :
    decodeInstr (chars ['L', 'E', 'G', '-', 'T', 'R', 'A', 'I', 'L', 'E', 'R', ' ', 'v', 'a', 'r', 'i', 'a', 'n', 't', '=',
      'g', 'e', 'c', 'c', 'o', ' ', 'c', 'l', 'k', 'd', 'i', 'v', '=', '2']) =
      .ok (.legTrailer .gecco 2) := by
  decide

theorem test_decode_spiHdr :
    decodeInstr (chars ['S', 'P', 'I', '-', 'H', 'D', 'R', ' ', 't', '=', '5', ' ', 'i', '=', '3', '1']) =
      .ok (.spiHdr 5 31) := by
  decide

theorem test_decode_spiBit :
    decodeInstr (chars ['S', 'P', 'I', '-', 'B', 'I', 'T', ' ', 'x', '=', '1']) =
      .ok (.spiBit true) := by
  decide

theorem test_decode_spiLoad :
    decodeInstr (chars ['S', 'P', 'I', '-', 'L', 'O', 'A', 'D']) =
      .ok (.spiLoad) := by
  decide

theorem test_decode_spiEmpty :
    decodeInstr (chars ['S', 'P', 'I', '-', 'E', 'M', 'P', 'T', 'Y']) =
      .ok (.spiEmpty) := by
  decide

theorem test_decode_lenHdr :
    decodeInstr (chars ['L', 'E', 'N', '-', 'H', 'D', 'R', ' ', 'l', 'e', 'n', '=', '0', 'x', '0', '8', '4', '8']) =
      .ok (.lenHdr 0x0848) := by
  decide

/-- `DECODE` and `GENERATE` expand as R103 says. -/
theorem test_decode_pseudo_decode :
    decodeLine (chars ['D', 'E', 'C', 'O', 'D', 'E', ' ', 'r', 'e', 'v', '=', '1', ' ', 'f', 'w', '=', '5', ' ', 'h', 'd', 'r', '=']
        ++ [0x7B#8]
        ++ chars ['0', 'x', '0', '4']
        ++ [0x7D#8]
        ++ chars [' ', '[', '0', 'x', '2', '0', ']']) =
      .ok ⟨[.config true 5 (BitVec.twoPow 256 4), .push 0x20, .endBurst], false⟩ := by
  decide

theorem test_decode_pseudo_generate :
    decodeLine (chars ['G', 'E', 'N', 'E', 'R', 'A', 'T', 'E', ' ', 's', 'p', 'i', ' ', 't', 'a', 'r', 'g', 'e', 't', '=',
      'c', 'h', 'i', 'p', ':', '3', '1', ' ', 'l', 'o', 'a', 'd', '=', '0', ' ', 'v', 'e', 'c', '=', 'b']) =
      .ok ⟨[.gen (spi false 31 false 0 [])], true⟩ := by
  decide

theorem test_reject_unknown :
    decodeInstr (chars ['H', 'A', 'L', 'T']) =
      .error (.unknownOperation (chars ['H', 'A', 'L', 'T'])) := by
  decide

theorem test_reject_outside_type :
    decodeInstr (chars ['P', 'U', 'S', 'H', ' ', '2', '5', '6']) =
      .error (.outsideType (chars ['2', '5', '6'])) := by
  decide

theorem test_reject_missing_operand :
    decodeInstr (chars ['C', 'O', 'N', 'F', 'I', 'G', ' ', 'r', 'e', 'v', '=', '0']) =
      .error (.missingField kFw) := by
  decide

theorem test_reject_trailing :
    decodeInstr (chars ['S', 'T', 'E', 'P', ' ', '1']) =
      .error (.trailing [chars ['1']]) := by
  decide

theorem test_reject_ill_formed :
    decodeInstr (chars ['L', 'E', 'G', '-', 'P', 'A', 'T', '-', 'A', 'S', 'I', 'C', ' ', 'x', '=', '1', ' ', 'c', 'l', 'k',
      'd', 'i', 'v', '=', '0']) =
      .error (.illFormed) := by
  decide

/-! ### Decoding: raw words, bit by bit from the encodings of opcode_table.json -/

/-- `iiiiiwww` with i = 1, w = 4. -/
theorem test_word_fmtHdr : decodeTableWord 8 0b00001100 = some (.fmtHdr 1 4) := by decide

/-- `cccccppp krllllll tttttttt eeeemmmm nnnnnnnn` of FV-4, the first byte lowest. -/
theorem test_word_fmtHit5 :
    decodeTableWord 40 0b1011110000001010001111001000010100000100 =
      some (.fmtHit5 0 4 1 0 5 0b00111100 0 0b1010 0b10111100) := by
  decide

/-- `hhhhhhhh llllllll` of WV-11: h = 0x08, l = 0x48. -/
theorem test_word_lenHdr : decodeTableWord 16 0b0100100000001000 = some (.lenHdr 0x0848) := by decide

/-- `tttiiiii` with t = 5, i = 5 (WV-15, PX): the byte A5. -/
theorem test_word_spiHdr : encodeWord (.spiHdr 5 5) = some [0b10100101] := by decide

/-- A table word runs as the first instruction after reset. -/
theorem test_fetch_word :
    after (step (State.reset.withFetchWord 8 0b00001100)) (fun t => t.report == .bytes [0x0C]) = true := by
  decide

/-! ### FSD -/

/-- FV-1. -/
theorem test_bitrev8 : [0x01, 0x20, 0x0C, 0x12, 0xA5].map bitrev8 = [0x80, 0x04, 0x30, 0x48, 0xA5] := by decide

/-- FV-2. -/
theorem test_hset : hset 3 5 = byteSet [0x04, 0x0C, 0x14] ∧ hset 2 8 = byteSet [0x07, 0x0F] ∧ hset 0 5 = 0 := by
  decide

/-- FV-3. -/
theorem test_config :
    after (exec (.config true 8 (byteSet [0x07])) (fsdAt false 5 (hset 3 5) .hunt []))
      (fun t => t.fsd == (fsdAt true 8 (byteSet [0x07]) .hunt []).fsd && !t.refused) = true := by
  decide

/-- EV-3. -/
theorem test_config_bad_fw :
    after (exec (.config false 9 0) State.reset)
      (fun t => t.fsd == State.reset.fsd && t.refused && t.report == .refusal .fsdBadFw) = true := by
  decide

/-- FV-3. -/
theorem test_configChips :
    after (exec (.configChips false 5 3) State.reset)
      (fun t => t.fsd == (fsdAt false 5 (byteSet [0x04, 0x0C, 0x14]) .hunt []).fsd) = true := by
  decide

/-- EV-5. -/
theorem test_configChips_priority :
    after (exec (.configChips false 0 40) (fsdAt false 5 (hset 1 5) .collect [0x04]))
      (fun t => t.report == .refusal .fsdConfigInFrame && t.fsd.fw == some 5) = true := by
  decide

/-- FV-7, the last raw byte of the frame, on a reversed link; the fields are those of FV-4. -/
theorem test_push_completes :
    after (exec (.push 0x3D) (fsdAt true 5 (byteSet [0x04]) .collect [0x04, 0x85, 0x3C, 0x0A]))
      (fun t =>
        t.fsd.mode == .hunt && t.fsd.buf == [] &&
          t.fsd.frames ==
            [{ raw := [0x04, 0x85, 0x3C, 0x0A, 0xBC]
               fields :=
                 some
                   { chipId := 0, payload := 4, isColumn := 1, location := 5, timestamp := 60, totMsb := 0xA,
                     totLsb := 0xBC, timeOverThreshold := 2748 } }]) = true := by
  decide

/-- EV-1. -/
theorem test_push_unconfigured :
    after (exec (.push 0x04) State.reset)
      (fun t => t.fsd == { State.reset.fsd with fault := some .fsdUnconfigured } && !t.refused) = true := by
  decide

/-- FV-16. -/
theorem test_end :
    after (exec .endBurst (fsdAt false 5 (byteSet [0x04]) .collect [0x04, 0x01]))
      (fun t => t.fsd == (fsdAt false 5 (byteSet [0x04]) .hunt []).fsd) = true := by
  decide

/-- EV-1: a faulted FSD has no step. -/
theorem test_end_faulted : exec .endBurst broken = .fault .noStepFsdFaulted := rfl

/-! ### WSQ -/

/-- WV-5: L = 52, LEN = (00, 34). -/
theorem test_gen_legacy :
    after (exec (.gen (leg .gecco 2 true [true, false])) State.reset)
      (fun t =>
        t.wsq.jobLen == some 52 && t.wsq.phase == .run && t.wsq.lenHi == some 0x00 && t.wsq.lenLo == some 0x34) =
      true := by
  decide

/-- EV-9. -/
theorem test_gen_bad_chip :
    after (exec (.gen (spi false 32 false 0 [true])) State.reset)
      (fun t => t.wsq == State.reset.wsq && t.refused && t.report == .refusal .wsqBadChipid) = true := by
  decide

/-- WV-3, the second byte: SIN | CK1. -/
theorem test_step_byte :
    after (stepWith px (wsqAt (leg .asic 1 false [true]) 1))
      (fun t => t.wsq.out == [0x30] && t.wsq.pos == 2 && t.wsq.phase == .run) = true := by
  decide

/-- WV-14, the last byte: SPI_EMPTY, and the job is over. -/
theorem test_step_last :
    after (stepWith px (wsqAt (spi true 0 true 2 [true, false, true]) 7))
      (fun t => t.wsq.out == [0xEE] && t.wsq.pos == 8 && t.wsq.phase == .idle) = true := by
  decide

/-- WV-11: LEN = (08, 48) for L = 2120; the vector is left short, the length register is what LEN reads. -/
theorem test_len :
    after (exec .len { State.reset with wsq := { State.reset.wsq with lenHi := some 0x08, lenLo := some 0x48 } })
      (fun t => t.report == .lenPair 0x08 0x48 && t.wsq.fault == none) = true := by
  decide

/-- EV-6. -/
theorem test_len_unset :
    after (exec .len (wsqAt (spi true 0 false 0 [true]) 0))
      (fun t => t.wsq.fault == some .wsqLenUnset && t.fsd == State.reset.fsd) = true := by
  decide

/-- R250. -/
theorem test_reset :
    after (exec .reset broken)
      (fun t => t.fsd == State.reset.fsd && t.wsq == State.reset.wsq && !t.refused && everRefused t) = true := by
  decide

/-- WV-5, whole. -/
theorem test_wave_gecco :
    wave px (leg .gecco 2 true [true, false]) =
      [0x10, 0x10, 0x30, 0x30, 0x10, 0x10, 0x00, 0x00, 0x20, 0x20, 0x00, 0x00]
        ++ rep 0x00 10 ++ rep 0x80 20 ++ rep 0x00 10 := by
  decide

/-- WV-15, whole. -/
theorem test_wave_spi : wave px (spi false 5 false 0 [false, true]) = [0xA5, 0xB0, 0xB1] := by decide

/-! ### Codes and the host -/

/-- R221, R222. -/
theorem test_code_numbers :
    FaultCode.fsdUnconfigured.number = 1 ∧ FaultCode.wsqLenUnset.number = 2 ∧
      RefusalCode.fsdConfigInFrame.number = 16 ∧ RefusalCode.fsdBadFw.number = 17 ∧
      RefusalCode.fsdBadNchips.number = 18 ∧ RefusalCode.wsqBusy.number = 19 ∧
      RefusalCode.wsqBadClkdiv.number = 20 ∧ RefusalCode.wsqBadChipid.number = 21 ∧
      RefusalCode.wsqLenOverflow.number = 22 := by
  decide

/-- R133: chip 0 with a valid payload is clean; chip 1 is not. -/
theorem test_clean :
    [frameRecord 5 [0x04, 0x85, 0x3C, 0x0A, 0xBC], frameRecord 5 [0x0C, 0x7F, 0xFF, 0xFF, 0xFF]].map (clean [4]) =
      [true, false] := by
  decide

/-- The model's choice, not R133's: a record without fields is not clean (log 15). -/
theorem test_clean_without_fields : clean [4] (frameRecord 2 [0x01, 0x01]) = false := by decide

/-- P6: a refused run does not end well; a run from reset with END does (FV-16). -/
theorem test_ends_well :
    after (exec (.config false 2 0) collecting) (fun t => endsWell (observe t)) = false ∧
      after (exec .endBurst State.reset) (fun t => endsWell (observe t)) = true := by
  decide

/-! ### Format rows -/

/-- R82: chip 1 of width 5 has the header 0x0C. -/
theorem test_fmtHdr : after (exec (.fmtHdr 1 4) State.reset) (fun t => t.report == .bytes [0x0C]) = true := by
  decide

/-- FV-5: reserved bits set. -/
theorem test_fmtHit5 :
    after (exec (.fmtHit5 1 4 0 1 63 255 0xF 15 255) State.reset)
      (fun t =>
        t.report ==
          .record
            { raw := [0x0C, 0x7F, 0xFF, 0xFF, 0xFF]
              fields :=
                some
                  { chipId := 1, payload := 4, isColumn := 0, location := 63, timestamp := 255, totMsb := 15,
                    totLsb := 255, timeOverThreshold := 4095 } }) = true := by
  decide

/-- FV-15: width 8, no fields. -/
theorem test_fmtHitN :
    after (exec (.fmtHitN [7, 1, 2, 3, 4, 5, 6, 7]) State.reset)
      (fun t => t.report == .record { raw := [7, 1, 2, 3, 4, 5, 6, 7], fields := none }) = true := by
  decide

/-- WV-1 and WV-2, the data byte. -/
theorem test_legData : legacyData px .gecco true = 0x10 ∧ legacyData px .gecco false = 0x00 := by decide

/-- WV-10, one bit. -/
theorem test_legPatGecco :
    stretch 3 (patGecco px true) = [0x10, 0x10, 0x10, 0x30, 0x30, 0x30, 0x10, 0x10, 0x10] := by
  decide

/-- WV-3 and WV-4. -/
theorem test_legPatAsic :
    patAsic px true = [0x10, 0x30, 0x10, 0x50, 0x10] ∧ patAsic px false = [0x00, 0x20, 0x00, 0x40, 0x00] := by
  decide

/-- WV-9. -/
theorem test_legTrailer : trailer px .asic 2 = rep 0x00 20 ++ rep 0x80 20 ++ rep 0x00 20 := by decide

/-- WV-14 and WV-16, the headers. -/
theorem test_spiHdr : spiHdrLayout 7 31 = 0xFF ∧ spiHdrLayout 5 31 = 0xBF := by decide

/-- WV-14, the bit bytes. -/
theorem test_spiBit : spiBitByte px true = 0xB1 ∧ spiBitByte px false = 0xB0 := by decide

/-- R90: the load marker and the empty byte are the parameters, whatever they are. -/
theorem test_spiLoad : exec .spiLoad State.reset = .next { State.reset with report := .bytes [params.load] } := rfl

theorem test_spiEmpty : exec .spiEmpty State.reset = .next { State.reset with report := .bytes [params.empty] } := rfl

/-- WV-12: LEN = (FF, FF). -/
theorem test_lenHdr : after (exec (.lenHdr 0xFFFF) State.reset) (fun t => t.report == .bytes [0xFF, 0xFF]) = true := by
  decide

/-! ### Witnesses: the hypotheses of each statement are met, clause by clause, at the ends of their ranges -/

/-- The state s with this schedule. -/
def scheduled (items : List HostItem) (s : State) : State := { s with pending := items }

theorem witness_EveryStepKeepsTheInvariants :
    ∃ t, Inv (scheduled [.op (.push 0x05)] collecting) ∧ step (scheduled [.op (.push 0x05)] collecting) = .next t :=
  ⟨_, by decide, rfl⟩

/-- The WSQ's half of the invariants, in a running job. -/
theorem witness_inv_running : Inv (wsqAt (leg .gecco 1 false [true]) 2) := by decide

theorem witness_AStepRunsTheDecodedInstruction :
    (scheduled [.op .step] State.reset).pending = [.op .step] ∧
      decodeLine (chars ['S', 'T', 'E', 'P']) = .ok ⟨[.step], false⟩ ∧ decodeRaw [0x0C] = .ok (.fmtHdr 1 4) ∧
      State.reset.pending = [] := by
  decide

/-- PUSH 256 as a line, three bytes that are no line as a word, and the first numeral outside a byte. -/
theorem witness_AStepRunsTheDecodedInstruction_refused :
    decodeLine (chars ['P', 'U', 'S', 'H', ' ', '2', '5', '6']) = .error (.outsideType (chars ['2', '5', '6'])) ∧
      decodeRaw [0x04, 0x85, 0x3C] = .error (.unknownOperation [0x04, 0x85, 0x3C]) ∧
      readNat? (chars ['2', '5', '6']) = some 256 ∧ 2 ^ 8 ≤ 256 := by
  decide

theorem witness_PseudoOperationsIssueTheirExpansion :
    decodeLine (chars ['P', 'U', 'S', 'H', 'S', ' ', '[', '1', ',', '2', ']']) = .ok ⟨[.push 1, .push 2], false⟩ ∧
      decodeLine (chars ['G', 'E', 'N', 'E', 'R', 'A', 'T', 'E', ' ', 's', 'p', 'i', ' ', 't', 'a', 'r', 'g', 'e', 't',
        '=', 'b', 'c', 'a', 's', 't', ' ', 'l', 'o', 'a', 'd', '=', '0', ' ', 'v', 'e', 'c', '=', 'b']) =
        .ok ⟨[.gen (spi true 0 false 0 [])], true⟩ ∧
      decodeLine (chars ['D', 'R', 'A', 'I', 'N']) = .ok ⟨[], true⟩ ∧
      decodeLine (chars ['P', 'U', 'S', 'H', 'S', ' ', '[', ']']) = .ok ⟨[], false⟩ ∧
      decodeLine (chars [';', ' ', 'x']) = .ok ⟨[], false⟩ ∧
      (scheduled [.drain] (wsqAt (spi true 0 false 0 []) 0)).wsq.phase = .run ∧
      (scheduled [.drain, .line (chars ['L', 'E', 'N'])] State.reset).wsq.phase = .idle := by
  decide

theorem witness_DecodingAnEncodedInstructionGivesItBack :
    (Instr.fmtHitN [1]).wellFormed = true ∧ (Instr.fmtHitN [1, 2, 3, 4, 5, 6, 7, 8]).wellFormed = true ∧
      (Instr.legTrailer .asic 1).wellFormed = true ∧ (Instr.push 0).wellFormed = true := by
  decide

theorem witness_HeaderValueIsExact : (31 : Nat) ≤ 31 ∧ (1 : Nat) ≤ 8 ∧ (8 : Nat) ≤ 8 ∧ headerValue 31 8 = 0xFF := by
  decide

theorem witness_HeaderSetIsTheFormulaSet :
    (32 : Nat) ≤ 32 ∧ (1 : Nat) ≤ 1 ∧ (8 : Nat) ≤ 8 ∧ isHdr (hset 32 8) 0xFF = true ∧ isHdr (hset 0 5) 0x04 = false := by
  decide

theorem witness_ReservedBitsEnterNoField :
    (0x85#8 &&& 0xBF#8 = 0xC5#8 &&& 0xBF#8) ∧ (0x0A#8 &&& 0x0F#8 = 0xFA#8 &&& 0x0F#8) := by
  decide

theorem witness_ConfigLoadsOrRefuses_accepts :
    State.reset.fsd.fault = none ∧ State.reset.fsd.mode = .hunt ∧ 1 ≤ (1#4).toNat ∧ (8#4).toNat ≤ 8 := by
  decide

theorem witness_ConfigLoadsOrRefuses_refuses :
    collecting.fsd.fault = none ∧ collecting.fsd.mode = .collect ∧ State.reset.fsd.mode = .hunt ∧
      (0#4).toNat < 1 ∧ 8 < (9#4).toNat := by
  decide

theorem witness_ConfigChipsLoadsOrRefuses_accepts :
    State.reset.fsd.fault = none ∧ State.reset.fsd.mode = .hunt ∧ 1 ≤ (1#4).toNat ∧ (8#4).toNat ≤ 8 ∧
      (0#6).toNat ≤ 32 ∧ (32#6).toNat ≤ 32 := by
  decide

theorem witness_ConfigChipsLoadsOrRefuses_refuses :
    collecting.fsd.fault = none ∧ collecting.fsd.mode = .collect ∧ State.reset.fsd.mode = .hunt ∧
      (0#4).toNat < 1 ∧ 8 < (9#4).toNat ∧ 32 < (33#6).toNat := by
  decide

theorem witness_PushTakesOneByte_unconfigured :
    State.reset.fsd.fault = none ∧ State.reset.fsd.rev = none ∧ State.reset.fsd.fw = none ∧
      State.reset.fsd.hdr = none := by
  decide

/-- Under header set (04) in HUNT: 03 is no header, 04 is one; widths 1, 2 and 8. -/
theorem witness_PushTakesOneByte_hunt :
    (fsdAt false 1 (byteSet [0x04]) .hunt []).fsd.fault = none ∧
      (fsdAt false 1 (byteSet [0x04]) .hunt []).fsd.mode = .hunt ∧ (byteSet [0x04]).getLsbD 0x03 = false ∧
      (byteSet [0x04]).getLsbD 0x04 = true ∧ (1#4).toNat = 1 ∧ (2#4).toNat ≠ 1 ∧ (8#4).toNat ≠ 1 := by
  decide

/-- In COLLECT, width 5: the third byte does not complete the frame, the fifth does. -/
theorem witness_PushTakesOneByte_collect :
    collecting.fsd.fault = none ∧ collecting.fsd.mode = .collect ∧ collecting.fsd.buf.length + 1 = (5#4).toNat ∧
      (fsdAt false 5 (byteSet [0x04]) .collect [0x04, 0x01]).fsd.buf.length + 1 ≠ (5#4).toNat := by
  decide

theorem witness_EndDiscardsThePartialFrame : collecting.fsd.fault = none ∧ collecting.fsd.buf ≠ [] := by decide

theorem witness_AHeaderValueInABodyStartsNoFrame :
    ∃ t, collecting.fsd.mode = .collect ∧ collecting.fsd.hdr = some (byteSet [0x04]) ∧
      exec (.push 0x04) collecting = .next t :=
  ⟨_, rfl, rfl, rfl⟩

theorem witness_EmittedRecordHasTheWidthInForce :
    ∃ t r, Inv collecting ∧ exec (.push 0x04) collecting = .next t ∧
      t.fsd.frames = collecting.fsd.frames ++ [r] :=
  ⟨_, _, by decide, rfl, rfl⟩

theorem witness_TheFsdEqualsTheSourcesDecoder :
    State.reset.fsd.fault = none ∧ State.reset.fsd.mode = .hunt ∧ 1 ≤ (1#4).toNat ∧ (8#4).toNat ≤ 8 ∧
      refDecode [0x04, 0x01, 0x02, 0x03, 0x04, 0x09, 0x04, 0x01, 0x02] false 5 (byteSet [0x04]) =
        [[0x04, 0x01, 0x02, 0x03, 0x04]] := by
  decide

theorem witness_NoFrameContinuesAcrossABurst :
    State.reset.fsd.fault = none ∧ State.reset.fsd.mode = .hunt ∧ 1 ≤ (1#4).toNat ∧ (8#4).toNat ≤ 8 ∧
      refDecode [0x04, 0x01] false 5 (byteSet [0x04]) = [] ∧
      refDecode [0x01, 0x01, 0x01] false 2 (byteSet [0x01]) = [[0x01, 0x01]] := by
  decide

theorem witness_APartialFrameIsInvisible :
    ∃ t u, exec .endBurst collecting = .next t ∧ t ≠ collecting ∧
      exec (.push 0x04) (fsdAt false 5 (byteSet [0x04]) .hunt []) = .next u ∧ u.fsd.fault = none ∧
      u.fsd.mode = .collect :=
  ⟨_, _, rfl, by decide, rfl, rfl, rfl⟩

/-- FV-13, on a link of either bit order; the raw byte 04 is junk on the reversed one. -/
theorem witness_TwoFramesAroundHeaderFreeJunk :
    State.reset.fsd.fault = none ∧ State.reset.fsd.mode = .hunt ∧
      isHdr (byteSet [0x04]) (logicalByte false 0x04) = true ∧
      (∀ x ∈ ([0x99, 0x77] : List Byte), isHdr (byteSet [0x04]) (logicalByte false x) = false) ∧
      isHdr (byteSet [0x04]) (logicalByte true 0x20) = true ∧
      (∀ x ∈ ([0x04] : List Byte), isHdr (byteSet [0x04]) (logicalByte true x) = false) := by
  decide

theorem witness_ChipHeadersGivePayloadFour :
    ∃ t, State.reset.fsd.fault = none ∧ State.reset.fsd.mode = .hunt ∧ (32#6).toNat ≤ 32 ∧
      execAll (.configChips false 5 32 :: ([0x0C, 0x01, 0x02, 0x03, 0x04] : List Byte).map .push) State.reset = .next t :=
  ⟨_, rfl, rfl, by decide, rfl⟩

/-! The legal jobs of the waveform statements, at the ends of their ranges (WV-12, WV-13, WV-16). -/

theorem witness_legalJobs :
    jobLegal (leg .gecco 1 true [true]) = true ∧ jobLegal (leg .asic 2 false []) = true ∧
      jobLegal (leg .gecco 65535 false []) = true ∧ jobLegal (spi false 31 true 2 [false]) = true ∧
      jobLegal (spi true 63 false 0 []) = true := by
  decide

theorem witness_TheWaveHasTheJobLength : LegalParams px ∧ jobLegal (leg .gecco 2 true [true, false]) = true :=
  ⟨px_legal, by decide⟩

/-- The first and the last index of WV-5, and of a SPI job that is its header alone. -/
theorem witness_TheByteAtAnIndexIsTheWaves :
    LegalParams px ∧ jobLegal (leg .gecco 2 true [true, false]) = true ∧
      0 < jobLength (leg .gecco 2 true [true, false]) ∧ 51 < jobLength (leg .gecco 2 true [true, false]) ∧
      jobLegal (spi false 31 false 0 []) = true ∧ 0 < jobLength (spi false 31 false 0 []) :=
  ⟨px_legal, by decide⟩

theorem witness_TheLoadPulseIsBracketedByLowBytes : LegalParams px ∧ (1 : Nat) ≤ 1 := ⟨px_legal, by decide⟩

theorem witness_LegacyBytesDriveOnlyTheLines :
    LegalParams px ∧ (leg .asic 1 true [true]).proto = .legacy ∧ (leg .asic 1 true [true]).variant = .asic :=
  ⟨px_legal, by decide⟩

theorem witness_SpiTargetHeadersDiffer :
    LegalParams px ∧ (spi true 0 false 0 []).bcast = true ∧ (spi false 31 false 0 []).bcast = false ∧
      (spi false 31 false 0 []).chip.toNat ≤ 31 :=
  ⟨px_legal, by decide⟩

theorem witness_ASpiJobIsItsSequence : (spi false 2 false 0 [true, true]).proto = .spi := rfl

/-- WV-21. -/
theorem witness_JobsOfEqualShapeDifferOnlyInData :
    LegalParams px ∧ jobLegal (leg .gecco 2 true [true, false]) = true ∧
      [false, true].length = (leg .gecco 2 true [true, false]).vec.length :=
  ⟨px_legal, by decide⟩

theorem witness_TheLengthHeaderIsBigEndian : (0 : Nat) ≤ 0xFFFF ∧ (0xFFFF : Nat) ≤ 0xFFFF := by decide

theorem witness_GenAcceptsOrRefuses_accepts :
    State.reset.wsq.fault = none ∧ State.reset.wsq.phase = .idle ∧ (leg .gecco 65535 false []).proto = .legacy ∧
      (leg .gecco 65535 false []).clkdiv ≠ 0 ∧ jobLength (leg .gecco 65535 false []) ≤ 0xFFFF ∧
      jobLength (leg .gecco 21845 false [true]) = 0xFFFF ∧ (spi true 63 false 0 []).proto = .spi ∧
      (spi true 63 false 0 []).bcast = true ∧ (spi false 31 false 0 []).chip.toNat ≤ 31 := by
  decide

theorem witness_LegalJobsAreTheRulesJobs :
    jobLegal (leg .asic 0 true [true]) = false ∧ jobLegal (spi false 32 false 0 []) = false ∧
      jobLegal (leg .gecco 3277 true []) = false ∧ State.reset.wsq.fault = none := by
  decide

theorem witness_GenAcceptsOrRefuses_refuses :
    (wsqAt (leg .gecco 1 false [true]) 1).wsq.fault = none ∧ (wsqAt (leg .gecco 1 false [true]) 1).wsq.phase = .run ∧
      State.reset.wsq.phase = .idle ∧ (leg .asic 0 true [true]).clkdiv = 0 ∧ 31 < (spi false 32 false 0 []).chip.toNat ∧
      (leg .gecco 3277 true []).clkdiv ≠ 0 ∧ 0xFFFF < jobLength (leg .gecco 3277 true []) := by
  decide

/-- The first byte of a wave, of whatever parameters: its index lies inside the list. -/
theorem witness_StepEmitsTheNextByte :
    ∃ b, (wsqAt (spi true 0 false 0 []) 0).wsq.fault = none ∧ (wsqAt (spi true 0 false 0 []) 0).wsq.phase = .run ∧
      (wsqAt (spi true 0 false 0 []) 0).wsq.job = some (spi true 0 false 0 []) ∧
      (wsqAt (spi true 0 false 0 []) 0).wsq.jobLen = some 1 ∧ jobLegal (spi true 0 false 0 []) = true ∧
      (wave params (spi true 0 false 0 []))[(wsqAt (spi true 0 false 0 []) 0).wsq.pos]? = some b ∧
      State.reset.wsq.fault = none ∧ State.reset.wsq.phase = .idle :=
  ⟨_, rfl, rfl, rfl, rfl, rfl, rfl, rfl, rfl⟩

theorem witness_LenReadsTheLengthHeader :
    (wsqAt (leg .gecco 2 true [true, false]) 0).wsq.fault = none ∧
      (wsqAt (leg .gecco 2 true [true, false]) 0).wsq.lenHi = some 0x00 ∧
      (wsqAt (leg .gecco 2 true [true, false]) 0).wsq.lenLo = some 0x34 ∧ State.reset.wsq.fault = none ∧
      State.reset.wsq.lenHi = none := by
  decide

theorem witness_TheLengthHeaderAgreesWithTheBytes :
    Inv (wsqAt (leg .gecco 2 true [true, false]) 3) ∧ (wsqAt (leg .gecco 2 true [true, false]) 3).wsq.fault = none ∧
      (wsqAt (leg .gecco 2 true [true, false]) 3).wsq.job = some (leg .gecco 2 true [true, false]) ∧
      (leg .gecco 2 true [true, false]).proto = .legacy := by
  decide

theorem witness_TheWsqEqualsTheSourcesGenerator :
    State.reset.wsq.fault = none ∧ State.reset.wsq.phase = .idle ∧ jobLegal (leg .asic 2 true []) = true ∧
      jobLegal (leg .gecco 1 false []) = true := by
  decide

theorem witness_DrainEmitsTheWholeJob :
    (scheduled [.op (.gen (leg .asic 1 false [true])), .drain] State.reset).pending =
        .op (.gen (leg .asic 1 false [true])) :: .drain :: [] ∧
      (scheduled [.op (.gen (leg .asic 1 false [true])), .drain] State.reset).wsq.fault = none ∧
      (scheduled [.op (.gen (leg .asic 1 false [true])), .drain] State.reset).wsq.phase = .idle ∧
      jobLegal (leg .asic 1 false [true]) = true := by
  decide

/-- Each way of stopping happens in a state that meets the invariants. -/
theorem witness_AnOperationStopsOnlyWhereThereIsNoStep :
    Inv State.reset ∧ exec .step State.reset = .fault .noStepIdle ∧ Inv broken ∧
      exec .endBurst broken = .fault .noStepFsdFaulted ∧ exec .len broken = .fault .noStepWsqFaulted ∧
      exec (.fmtHitN []) State.reset = .refused .noSuchFormat :=
  ⟨by decide, rfl, by decide, rfl, rfl, rfl⟩

theorem witness_AFaultedEngineHasNoStep :
    ∃ t, broken.fsd.fault ≠ none ∧ broken.wsq.fault ≠ none ∧ engineOf Instr.endBurst.row = .fsd ∧
      engineOf Instr.step.row = .wsq ∧ exec .spiLoad broken = .next t ∧ Instr.spiLoad ≠ .reset :=
  ⟨_, by decide, by decide, rfl, rfl, rfl, by decide⟩

/-- An operation of each engine, and a format row, goes on. -/
theorem witness_AnOperationWritesOnlyItsOwnEngine :
    ∃ t u v, exec (.push 0x04) collecting = .next t ∧ engineOf (Instr.push 0x04).row = .fsd ∧
      exec (.gen (leg .gecco 1 false [true])) State.reset = .next u ∧
      engineOf (Instr.gen (leg .gecco 1 false [true])).row = .wsq ∧
      exec .spiEmpty State.reset = .next v ∧ engineOf Instr.spiEmpty.row = .format :=
  ⟨_, _, _, rfl, rfl, rfl, rfl, rfl, rfl⟩

theorem witness_AnOperationReadsOnlyItsOwnEngine :
    ∃ t u, exec (.push 0x04) collecting = .next t ∧
      ({ collecting with wsq := broken.wsq } : State).fsd = collecting.fsd ∧
      exec .len (wsqAt (leg .gecco 1 false [true]) 0) = .next u ∧
      ({ wsqAt (leg .gecco 1 false [true]) 0 with fsd := broken.fsd } : State).wsq =
        (wsqAt (leg .gecco 1 false [true]) 0).wsq :=
  ⟨_, _, rfl, rfl, rfl, rfl⟩

theorem witness_ARefusalChangesNoRegister :
    ∃ t u v, exec (.config false 0 0) State.reset = .next t ∧ t.report = .refusal .fsdBadFw ∧
      exec (.configChips false 5 33) State.reset = .next u ∧ u.report = .refusal .fsdBadNchips ∧
      exec (.gen (leg .asic 0 true [true])) State.reset = .next v ∧ v.report = .refusal .wsqBadClkdiv :=
  ⟨_, _, _, rfl, rfl, rfl, rfl, rfl, rfl⟩

theorem witness_AFaultWritesOnlyTheFaultRegister :
    ∃ t u, exec (.push 0x04) State.reset = .next t ∧ t.report = .faulted .fsdUnconfigured ∧
      exec .len State.reset = .next u ∧ u.report = .faulted .wsqLenUnset :=
  ⟨_, _, rfl, rfl, rfl, rfl⟩

theorem witness_TheReportSaysHowTheOperationEnded :
    ∃ t u v, exec .len (wsqAt (leg .gecco 1 false [true]) 0) = .next t ∧ exec .spiLoad State.reset = .next u ∧
      exec .endBurst State.reset = .next v :=
  ⟨_, _, _, rfl, rfl, rfl⟩

theorem witness_TheRefusedMarkIsNeverHidden :
    ∃ t, exec .spiLoad broken = .next t ∧ broken.refused = true ∧ everRefused broken = true :=
  ⟨_, rfl, rfl, rfl⟩

/-- P6: a run goes on after a refusal. -/
theorem witness_AFaultedOrRefusedRunNeverEndsWell :
    ∃ t, (∀ i ∈ [Instr.endBurst], i ≠ .reset) ∧ ({ State.reset with refused := true } : State).refused = true ∧
      execAll [.endBurst] { State.reset with refused := true } = .next t :=
  ⟨_, by decide, rfl, rfl⟩

theorem witness_TheOutputsAreAppendOnly :
    ∃ t u, exec (.push 0x05) collecting = .next t ∧ t.fsd.frames ≠ collecting.fsd.frames ∧
      exec .step (wsqAt (spi true 0 false 0 []) 0) = .next u :=
  ⟨_, _, rfl, by decide, rfl⟩

theorem witness_TheConfigurationChangesOnlyInHunt :
    ∃ t, exec (.config true 8 0) State.reset = .next t ∧ t.fsd.fw ≠ State.reset.fsd.fw :=
  ⟨_, rfl, by decide⟩

theorem witness_ARunningJobIsNeverCutShort :
    ∃ t u, (wsqAt (leg .gecco 1 false [true]) 1).wsq.phase = .run ∧
      exec (.gen (spi true 0 false 0 [true])) (wsqAt (leg .gecco 1 false [true]) 1) = .next t ∧
      exec .step (wsqAt (leg .gecco 1 false [true]) 1) = .next u :=
  ⟨_, _, rfl, rfl, rfl⟩

/-- Widths 1 and 8 have the format; 0, 5 and 9 do not. -/
theorem witness_FrameFormatsBuildTheirBytes :
    1 ≤ ([1] : List Byte).length ∧ ([1, 2, 3, 4, 5, 6, 7, 8] : List Byte).length ≤ 8 ∧
      ([1, 2, 3, 4, 5, 6, 7, 8] : List Byte).length ≠ 5 ∧ ([] : List Byte).length < 1 ∧
      ([1, 2, 3, 4, 5] : List Byte).length = 5 ∧ 8 < ([1, 2, 3, 4, 5, 6, 7, 8, 9] : List Byte).length := by
  decide

theorem witness_LegacyFormatsBuildTheirBytes :
    ∃ d : Byte, (1 : Nat) ≤ 1 ∧ d = (if true = true then params.sin .gecco else 0x00#8) :=
  ⟨_, by decide, rfl⟩

/-- The first numeral outside each type: a byte, a bit, 4 bits, 6 bits. -/
theorem witness_AnOperandOutsideItsTypeIsNoOperation : 256 ≤ 2 ^ 8 ∧ 2 ≤ 2 ^ 1 ∧ 16 ≤ 2 ^ 4 ∧ 64 ≤ 2 ^ 6 := by decide

end Sys2Proof.Tests
end

/-! The ways an instruction can answer a next state, as one inductive view of `Effect`. -/

namespace Sys2Proof.Machine

variable {i : Instr} {s t : State}

/-- The ways an instruction can answer a next state from `s`, one constructor for each. It groups the cases of
`Effect` by what they do to the state, so that a whole-machine proof has one case a way and not one an instruction. -/
inductive Answer (s : State) : Instr → State → Prop where
  /-- CONFIG, CONFIG_CHIPS and GEN can refuse (60_exceptions.md R224). -/
  | refusal {i : Instr} (c : RefusalCode) (hi : i.row = .config ∨ i.row = .configChips ∨ i.row = .gen) :
      Answer s i (refuse c s)
  /-- CONFIG and CONFIG_CHIPS load a legal configuration in HUNT (40_frame_decoder.md R124, R125). -/
  | configured {i : Instr} (rev : Bool) {fw : BitVec 4} (hdr : BitVec 256)
      (hi : i.row = .config ∨ i.row = .configChips) (hf : s.fsd.fault = none) (hm : s.fsd.mode = .hunt)
      (hw : fwLegal fw = true) : Answer s i (configure rev fw hdr s)
  /-- PUSH under a whole configuration takes its byte (R126). -/
  | byteTaken (b : Byte) {rev : Bool} {fw : BitVec 4} {hdr : BitVec 256} (hrev : s.fsd.rev = some rev)
      (hfw : s.fsd.fw = some fw) (hhdr : s.fsd.hdr = some hdr) :
      Answer s (.push b) { s with fsd := takeByte fw hdr (logicalByte rev b) s.fsd, report := .done }
  /-- PUSH faults without a whole configuration (R126). -/
  | pushFault (b : Byte) (hu : s.fsd.rev = none ∨ s.fsd.fw = none ∨ s.fsd.hdr = none) :
      Answer s (.push b) (raiseFsd .fsdUnconfigured s)
  /-- END discards the frame in progress (R127). -/
  | burstEnded : Answer s .endBurst { s with fsd := { s.fsd with buf := [], mode := .hunt }, report := .done }
  /-- GEN accepts a legal job in IDLE (41_waveform.md R172). -/
  | jobAccepted {job : Job} (hf : s.wsq.fault = none) (hp : s.wsq.phase = .idle) (hj : jobLegal job = true) :
      Answer s (.gen job) { s with wsq := acceptJob job s.wsq, report := .done }
  /-- STEP emits the next byte of the running job (R184). -/
  | byteEmitted (b : Byte) {job : Job} {len : Nat} (hp : s.wsq.phase = .run) (hj : s.wsq.job = some job)
      (hl : s.wsq.jobLen = some len) (hlt : s.wsq.pos < jobLength job) :
      Answer s .step { s with wsq := emitByte b len s.wsq, report := .done }
  /-- LEN gives the length header back (R186). -/
  | lenRead {hi lo : Byte} (hhi : s.wsq.lenHi = some hi) (hlo : s.wsq.lenLo = some lo) :
      Answer s .len { s with report := .lenPair hi lo, lenReads := s.lenReads ++ [(hi, lo)] }
  /-- LEN faults without a length header (R186). -/
  | lenFault (hu : s.wsq.lenHi = none ∨ s.wsq.lenLo = none) : Answer s .len (raiseWsq .wsqLenUnset s)
  /-- RESET starts a new run (70_reset_and_hazards.md R250). -/
  | runStarted :
      Answer s .reset { State.reset with report := .done, ended := s.ended ++ [observe s], pending := s.pending }
  /-- A format row leaves its bytes or its record in `report` (log 6). -/
  | formatShown {i : Instr} (r : Report) (hi : engineOf i.row = .format) : Answer s i { s with report := r }

/-- What a format row does, said once for all twelve. -/
theorem effect_format (hi : engineOf i.row = .format) (h : Effect i s t) : ∃ r, { s with report := r } = t := by
  cases i with
  | fmtHdr | fmtHit5 | fmtHitN | legData | legPatGecco | legPatAsic | legTrailer | spiHdr | spiBit | spiLoad
  | spiEmpty | lenHdr =>
    obtain ⟨r, -, e⟩ := h
    exact ⟨r, e⟩
  | _ => cases hi

/-- Every next state of an instruction is one of the answers. -/
theorem exec_answer (h : exec i s = .next t) : Answer s i t := by
  have e := exec_next h
  cases i with
  | config rev fw hdr =>
    obtain ⟨hf, ⟨c, -, rfl⟩ | ⟨hm, hw, rfl⟩⟩ := e
    · exact .refusal c (.inl rfl)
    · exact .configured rev hdr (.inl rfl) hf hm hw
  | configChips rev fw n =>
    obtain ⟨hf, ⟨c, -, rfl⟩ | ⟨hm, hw, -, rfl⟩⟩ := e
    · exact .refusal c (.inr (.inl rfl))
    · exact .configured rev _ (.inr rfl) hf hm hw
  | push b =>
    obtain ⟨-, ⟨rev, fw, hdr, hrev, hfw, hhdr, rfl⟩ | ⟨hu, rfl⟩⟩ := e
    · exact .byteTaken b hrev hfw hhdr
    · exact .pushFault b hu
  | endBurst =>
    obtain ⟨-, rfl⟩ := e
    exact .burstEnded
  | gen job =>
    obtain ⟨hf, ⟨c, -, rfl⟩ | ⟨hp, hj, rfl⟩⟩ := e
    · exact .refusal c (.inr (.inr rfl))
    · exact .jobAccepted hf hp hj
  | step =>
    obtain ⟨-, job, len, hp, hj, hl, hlt, rfl⟩ := e
    exact .byteEmitted _ hp hj hl hlt
  | len =>
    obtain ⟨-, ⟨hi, lo, hhi, hlo, rfl⟩ | ⟨hu, rfl⟩⟩ := e
    · exact .lenRead hhi hlo
    · exact .lenFault hu
  | reset =>
    obtain rfl := e
    exact .runStarted
  | _ =>
    obtain ⟨r, rfl⟩ := effect_format rfl e
    exact .formatShown r rfl

/-- For an operation of the block `Effect` says exactly when it answers a next state, and which. -/
theorem exec_next_iff (hi : engineOf i.row ≠ .format) : exec i s = .next t ↔ Effect i s t := by
  cases i with
  | config => exact execConfig_next
  | configChips => exact execConfigChips_next
  | push => exact execPush_next
  | endBurst => exact execEnd_next
  | gen => exact execGen_next
  | step => exact execStep_next
  | len => exact execLen_next
  | reset => exact execReset_next
  | _ => exact absurd rfl hi

/-! ### The step -/

theorem step_of_issue_run {rest : List HostItem} (h : issue s.wsq.phase s.pending = .run i rest) :
    step s = exec i { s with pending := rest } := by
  simp [step, h]

theorem step_of_issue_bad {e : DecodeError} (h : issue s.wsq.phase s.pending = .bad e) :
    step s = .refused (.undecodable e) := by
  simp [step, h]

theorem step_of_issue_nothing (h : issue s.wsq.phase s.pending = .nothing) : step s = .fault .noOperation := by
  simp [step, h]

/-- A step that answers a next state has executed an operation, on the state but for its schedule. -/
theorem step_next (h : step s = .next t) : ∃ i rest, exec i { s with pending := rest } = .next t := by
  unfold step at h
  split at h
  · cases h
  · cases h
  · exact ⟨_, _, h⟩

/-! ### The invariants of the FSD (10_state.md R43) -/

section
variable {f : Fsd}

theorem fsdInv_reset : FsdInv State.reset.fsd := by
  simp [FsdInv, State.reset]

/-- Back in HUNT with an empty buffer: the end of a frame, or of a burst. -/
theorem fsdInv_hunt (h : FsdInv f) {frames : List FrameRecord} (hr : ∀ r ∈ frames, RecordOk r) :
    FsdInv { f with buf := [], mode := .hunt, frames := frames } := by
  obtain ⟨-, -, hset, hlegal, -, hfault⟩ := h
  exact ⟨by simp, by simp, hset, hlegal, hr, hfault⟩

/-- In COLLECT with a buffer that can still grow. -/
theorem fsdInv_collect (h : FsdInv f) {buf : List Byte}
    (hc : collectOk { f with buf := buf, mode := .collect } = true) :
    FsdInv { f with buf := buf, mode := .collect } := by
  obtain ⟨-, -, hset, hlegal, hrec, hfault⟩ := h
  obtain ⟨-, -, b, rest, -, -, hbuf, -⟩ := collectOk_iff.1 hc
  have hne : buf ≠ [] := fun h => List.cons_ne_nil b rest (hbuf.symm.trans h)
  exact ⟨by simp [hne], fun _ => hc, hset, hlegal, hrec, hfault⟩

theorem recordOk_append (h : FsdInv f) {r : FrameRecord} (hr : RecordOk r) : ∀ x ∈ f.frames ++ [r], RecordOk x := by
  obtain ⟨-, -, -, -, hrec, -⟩ := h
  intro x hx
  rcases List.mem_append.1 hx with hx | hx
  · exact hrec x hx
  · exact List.mem_singleton.1 hx ▸ hr

/-- Under the invariants a byte in COLLECT meets a buffer of at most FW - 1 bytes with a header first. -/
theorem fsdInv_buf (h : FsdInv f) (hm : f.mode = .collect) {fw : BitVec 4} {hdr : BitVec 256} (hfw : f.fw = some fw)
    (hhdr : f.hdr = some hdr) :
    ∃ b rest, f.buf = b :: rest ∧ rest.length + 1 ≤ fw.toNat - 1 ∧ isHdr hdr b = true := by
  obtain ⟨-, hc, -⟩ := h
  obtain ⟨fw', hdr', b, rest, hfw', hhdr', hbuf, hlen, hb⟩ := collectOk_iff.1 (hc hm)
  obtain rfl : fw = fw' := by simpa [hfw] using hfw'
  obtain rfl : hdr = hdr' := by simpa [hhdr] using hhdr'
  exact ⟨b, rest, hbuf, hlen, hb⟩

theorem fsdInv_takeByte (h : FsdInv f) {fw : BitVec 4} {hdr : BitVec 256} (hfw : f.fw = some fw)
    (hhdr : f.hdr = some hdr) (v : Byte) : FsdInv (takeByte fw hdr v f) := by
  have ⟨_, _, _, hlegals, _⟩ := h
  have hlegal : fwLegal fw = true := hlegals fw hfw
  have hrange := fwLegal_iff.1 hlegal
  rcases takeByte_cases fw hdr v f with ⟨-, -, e⟩ | ⟨-, -, rfl, e⟩ | ⟨-, hv, hw, e⟩ | ⟨hm, hl, e⟩ | ⟨-, hl, e⟩
  · exact e.symm ▸ h
  · exact e ▸ fsdInv_hunt h (recordOk_append h (recordOk hlegal rfl))
  · rw [e]
    refine fsdInv_collect h (collectOk_iff.2 ⟨fw, hdr, v, [], hfw, hhdr, rfl, ?_, hv⟩)
    have : fw.toNat ≠ 1 := fun h1 => hw (BitVec.eq_of_toNat_eq h1)
    simp; omega
  · obtain ⟨b, rest, hbuf, hlen, hb⟩ := fsdInv_buf h hm hfw hhdr
    rw [e]
    refine fsdInv_collect h (collectOk_iff.2 ⟨fw, hdr, b, rest ++ [v], hfw, hhdr, by simp [hbuf], ?_, hb⟩)
    simp [hbuf] at hl ⊢; omega
  · exact e ▸ fsdInv_hunt h (recordOk_append h (recordOk hlegal (by simpa using hl)))

theorem fsdInv_configure (h : FsdInv s.fsd) (hf : s.fsd.fault = none) (hm : s.fsd.mode = .hunt) (rev : Bool)
    {fw : BitVec 4} (hw : fwLegal fw = true) (hdr : BitVec 256) : FsdInv (configure rev fw hdr s).fsd := by
  obtain ⟨hbuf, -, -, -, hrec, -⟩ := h
  exact ⟨hbuf, by simp [hm], by simp, by simpa using hw, hrec, .inl hf⟩

/-- The fault of PUSH: under the invariants one unset configuration register means that all are. -/
theorem fsdInv_raiseFsd (h : FsdInv s.fsd) (hu : s.fsd.rev = none ∨ s.fsd.fw = none ∨ s.fsd.hdr = none) :
    FsdInv (raiseFsd .fsdUnconfigured s).fsd := by
  obtain ⟨hbuf, hc, hset, hlegal, hrec, -⟩ := h
  refine ⟨hbuf, hc, hset, hlegal, hrec, .inr ⟨rfl, ?_⟩⟩
  obtain ⟨h1, h2⟩ := hset
  rcases hu with hu | hu | hu <;> simp_all

end

/-! ### The invariants of the WSQ (R43) -/

section
variable {w : Wsq}

theorem wsqInv_reset : WsqInv State.reset.wsq := by
  simp [WsqInv, State.reset, headerOf]

theorem wsqInv_acceptJob {job : Job} (hf : w.fault = none) (hj : jobLegal job = true) : WsqInv (acceptJob job w) := by
  refine ⟨rfl, by simpa using hj, ?_, ?_, acceptJob_header job w, .inl hf⟩
  · intro hp
    refine ⟨jobLength job, rfl, Nat.pos_of_ne_zero fun h0 => ?_⟩
    simp [phaseAfterGen, h0] at hp
  · intro hp
    refine .inl ?_
    simpa [phaseAfterGen] using hp

theorem wsqInv_emitByte (h : WsqInv w) (b : Byte) {len : Nat} (hl : w.jobLen = some len) (hp : w.phase = .run) :
    WsqInv (emitByte b len w) := by
  obtain ⟨hlen, hlegal, hrun, -, hhdr, hfault⟩ := h
  obtain ⟨n, hn, hlt⟩ := hrun hp
  obtain rfl : n = len := by simpa [hl] using hn.symm
  refine ⟨hlen, hlegal, ?_, ?_, hhdr, hfault⟩
  · intro hp'
    have hne : w.pos + 1 ≠ n := by rintro rfl; simp [phaseAfterStep] at hp'
    exact ⟨n, hl, by simp; omega⟩
  · intro hp'
    have heq : w.pos + 1 = n := by simpa [phaseAfterStep] using hp'
    exact .inl (hl.trans (congrArg some heq.symm))

/-- The two halves of the length header are set together (R37). -/
theorem headerOf_isSome (job : Option Job) : (headerOf job).1.isSome = (headerOf job).2.isSome := by
  rcases job with - | job
  · rfl
  · cases hp : job.proto <;> simp [headerOf, hp]

theorem wsqInv_raiseWsq (h : WsqInv s.wsq) (hu : s.wsq.lenHi = none ∨ s.wsq.lenLo = none) :
    WsqInv (raiseWsq .wsqLenUnset s).wsq := by
  obtain ⟨hlen, hlegal, hrun, hidle, hhdr, -⟩ := h
  refine ⟨hlen, hlegal, hrun, hidle, hhdr, .inr ⟨rfl, ?_⟩⟩
  have hboth : s.wsq.lenHi.isSome = s.wsq.lenLo.isSome := by
    have := headerOf_isSome s.wsq.job
    rwa [← hhdr] at this
  rcases hu with hu | hu
  · exact hu
  · simpa [hu] using hboth

end

/-! ### The whole machine -/

/-- Every answer keeps the invariants of both engines. -/
theorem exec_keeps_inv (h : Inv s) (he : exec i s = .next t) : Inv t := by
  obtain ⟨hfsd, hwsq⟩ := h
  cases exec_answer he with
  | refusal c => exact ⟨hfsd, hwsq⟩
  | configured rev hdr hi hf hm hw => exact ⟨fsdInv_configure hfsd hf hm rev hw hdr, hwsq⟩
  | byteTaken b hrev hfw hhdr => exact ⟨fsdInv_takeByte hfsd hfw hhdr _, hwsq⟩
  | pushFault b hu => exact ⟨fsdInv_raiseFsd hfsd hu, hwsq⟩
  | burstEnded =>
    have ⟨_, _, _, _, hrec, _⟩ := hfsd
    exact ⟨fsdInv_hunt hfsd hrec, hwsq⟩
  | jobAccepted hf hp hj => exact ⟨hfsd, wsqInv_acceptJob hf hj⟩
  | byteEmitted b hp hj hl hlt => exact ⟨hfsd, wsqInv_emitByte hwsq b hl hp⟩
  | lenRead => exact ⟨hfsd, hwsq⟩
  | lenFault hu => exact ⟨hfsd, wsqInv_raiseWsq hwsq hu⟩
  | runStarted => exact ⟨fsdInv_reset, wsqInv_reset⟩
  | formatShown => exact ⟨hfsd, hwsq⟩

/-- Settles O4: a step executes one instruction, and every answer of an instruction keeps the invariants. -/
theorem everyStepKeepsTheInvariants : Obligations.EveryStepKeepsTheInvariants := by
  intro s t h hs
  obtain ⟨i, rest, he⟩ := step_next hs
  exact exec_keeps_inv (s := { s with pending := rest }) h he

/-! ### Records a PUSH emits -/

/-- The record a logical byte completes: the buffer and the byte, as wide as the configuration says, header first. -/
theorem takeByte_emits {f : Fsd} (h : FsdInv f) {fw : BitVec 4} {hdr : BitVec 256} (hfw : f.fw = some fw)
    (hhdr : f.hdr = some hdr) {v : Byte} {r : FrameRecord} (hr : (takeByte fw hdr v f).frames = f.frames ++ [r]) :
    ∃ b rest, r = frameRecord fw (b :: rest) ∧ rest.length + 1 = fw.toNat ∧ isHdr hdr b = true := by
  rcases takeByte_cases fw hdr v f with ⟨-, -, e⟩ | ⟨-, hv, rfl, e⟩ | ⟨-, -, -, e⟩ | ⟨-, -, e⟩ | ⟨hm, hl, e⟩
  · simp [e] at hr
  · obtain rfl : frameRecord 1#4 [v] = r := by simpa [e] using hr
    exact ⟨v, [], rfl, rfl, hv⟩
  · simp [e] at hr
  · simp [e] at hr
  · obtain rfl : frameRecord fw (f.buf ++ [v]) = r := by simpa [e] using hr
    obtain ⟨b, rest, hbuf, -, hb⟩ := fsdInv_buf h hm hfw hhdr
    exact ⟨b, rest ++ [v], by simp [hbuf], by simpa [hbuf] using hl, hb⟩

/-- Settles O21: only a byte taken under a whole configuration appends a record (`takeByte_emits`). -/
theorem emittedRecordHasTheWidthInForce : Obligations.EmittedRecordHasTheWidthInForce := by
  intro b s t r ⟨hfsd, _⟩ he hr
  cases exec_answer he with
  | refusal c hi => rcases hi with hi | hi | hi <;> cases hi
  | configured rev hdr hi => rcases hi with hi | hi <;> cases hi
  | byteTaken b hrev hfw hhdr =>
    obtain ⟨v, rest, rfl, hlen, hv⟩ := takeByte_emits hfsd hfw hhdr hr
    refine ⟨_, _, v, hfw, hhdr, hlen, rfl, hv, ?_⟩
    simp [BitVec.toNat_eq]
  | pushFault => simp at hr
  | formatShown r hi => cases hi

/-- Settles O24: END writes only FSD.BUF and FSD.MODE, and a byte after which the FSD is in COLLECT emits nothing. -/
theorem aPartialFrameIsInvisible : Obligations.APartialFrameIsInvisible := by
  constructor
  · intro s t he
    obtain ⟨-, rfl⟩ := exec_next he
    rfl
  · intro b s t he hf hm
    obtain ⟨-, ⟨rev, fw, hdr, -, -, -, rfl⟩ | ⟨-, rfl⟩⟩ := exec_next he
    · have hframes : (takeByte fw hdr (logicalByte rev b) s.fsd).frames = s.fsd.frames := by
        rcases takeByte_cases fw hdr (logicalByte rev b) s.fsd with
          ⟨-, -, e⟩ | ⟨-, -, -, e⟩ | ⟨-, -, -, e⟩ | ⟨-, -, e⟩ | ⟨-, -, e⟩
        · rw [e]
        · simp [e] at hm
        · rw [e]
        · rw [e]
        · simp [e] at hm
      obtain ⟨-, -, -, hfault⟩ := takeByte_frame fw hdr (logicalByte rev b) s.fsd
      simp [hostView, hframes, hfault]
    · simp at hf

/-! ### The two engines are apart (R20, 20_memory.md R73) -/

/-- Inside a run no instruction touches the schedule or the ended runs (logs 3, 4). -/
theorem exec_frame (hi : i ≠ .reset) (he : exec i s = .next t) : t.pending = s.pending ∧ t.ended = s.ended := by
  cases exec_answer he with
  | runStarted => exact absurd rfl hi
  | _ => exact ⟨rfl, rfl⟩

/-- Only an operation of the WSQ, or RESET, writes the WSQ. -/
theorem exec_wsq_frame (he : exec i s = .next t) (hw : engineOf i.row ≠ .wsq) (hb : engineOf i.row ≠ .both) :
    t.wsq = s.wsq := by
  cases exec_answer he with
  | jobAccepted | byteEmitted | lenFault => exact absurd rfl hw
  | runStarted => exact absurd rfl hb
  | _ => rfl

/-- Only an operation of the FSD, or RESET, writes the FSD. -/
theorem exec_fsd_frame (he : exec i s = .next t) (hf : engineOf i.row ≠ .fsd) (hb : engineOf i.row ≠ .both) :
    t.fsd = s.fsd := by
  cases exec_answer he with
  | configured rev hdr hi => rcases hi with hi | hi <;> exact absurd (by rw [hi]; rfl) hf
  | byteTaken | pushFault | burstEnded => exact absurd rfl hf
  | runStarted => exact absurd rfl hb
  | _ => rfl

/-- Settles O45: each engine is written by its own operations and RESET alone (`exec_fsd_frame`, `exec_wsq_frame`). -/
theorem anOperationWritesOnlyItsOwnEngine : Obligations.AnOperationWritesOnlyItsOwnEngine := by
  intro i s t he
  refine ⟨fun h => exec_wsq_frame he (by simp [h]) (by simp [h]),
    fun h => exec_fsd_frame he (by simp [h]) (by simp [h]),
    fun h => ⟨exec_fsd_frame he (by simp [h]) (by simp [h]), exec_wsq_frame he (by simp [h]) (by simp [h])⟩,
    fun h => exec_frame h he⟩

/-- An FSD operation does the same to every state with the same FSD. -/
theorem effect_fsd_congr {s' : State} (hi : engineOf i.row = .fsd) (hs : s'.fsd = s.fsd) (h : Effect i s t) :
    ∃ t', Effect i s' t' ∧ t'.fsd = t.fsd ∧ t'.report = t.report := by
  cases s
  cases s'
  obtain rfl := hs
  cases i with
  | config rev fw hdr =>
    obtain ⟨hf, ⟨c, hc, rfl⟩ | ⟨hm, hw, rfl⟩⟩ := h
    · exact ⟨_, ⟨hf, .inl ⟨c, hc, rfl⟩⟩, rfl, rfl⟩
    · exact ⟨_, ⟨hf, .inr ⟨hm, hw, rfl⟩⟩, rfl, rfl⟩
  | configChips rev fw n =>
    obtain ⟨hf, ⟨c, hc, rfl⟩ | ⟨hm, hw, hn, rfl⟩⟩ := h
    · exact ⟨_, ⟨hf, .inl ⟨c, hc, rfl⟩⟩, rfl, rfl⟩
    · exact ⟨_, ⟨hf, .inr ⟨hm, hw, hn, rfl⟩⟩, rfl, rfl⟩
  | push b =>
    obtain ⟨hf, ⟨rev, fw, hdr, hrev, hfw, hhdr, rfl⟩ | ⟨hu, rfl⟩⟩ := h
    · exact ⟨_, ⟨hf, .inl ⟨rev, fw, hdr, hrev, hfw, hhdr, rfl⟩⟩, rfl, rfl⟩
    · exact ⟨_, ⟨hf, .inr ⟨hu, rfl⟩⟩, rfl, rfl⟩
  | endBurst =>
    obtain ⟨hf, rfl⟩ := h
    exact ⟨_, ⟨hf, rfl⟩, rfl, rfl⟩
  | _ => cases hi

/-- A WSQ operation does the same to every state with the same WSQ. -/
theorem effect_wsq_congr {s' : State} (hi : engineOf i.row = .wsq) (hs : s'.wsq = s.wsq) (h : Effect i s t) :
    ∃ t', Effect i s' t' ∧ t'.wsq = t.wsq ∧ t'.report = t.report := by
  cases s
  cases s'
  obtain rfl := hs
  cases i with
  | gen job =>
    obtain ⟨hf, ⟨c, hc, rfl⟩ | ⟨hp, hj, rfl⟩⟩ := h
    · exact ⟨_, ⟨hf, .inl ⟨c, hc, rfl⟩⟩, rfl, rfl⟩
    · exact ⟨_, ⟨hf, .inr ⟨hp, hj, rfl⟩⟩, rfl, rfl⟩
  | step =>
    obtain ⟨hf, job, len, hp, hj, hl, hlt, rfl⟩ := h
    exact ⟨_, ⟨hf, job, len, hp, hj, hl, hlt, rfl⟩, rfl, rfl⟩
  | len =>
    obtain ⟨hf, ⟨hi, lo, hhi, hlo, rfl⟩ | ⟨hu, rfl⟩⟩ := h
    · exact ⟨_, ⟨hf, .inl ⟨hi, lo, hhi, hlo, rfl⟩⟩, rfl, rfl⟩
    · exact ⟨_, ⟨hf, .inr ⟨hu, rfl⟩⟩, rfl, rfl⟩
  | _ => cases hi

/-- Settles O46: `Effect` reads of the state only the engine of the operation. -/
theorem anOperationReadsOnlyItsOwnEngine : Obligations.AnOperationReadsOnlyItsOwnEngine := by
  intro i s s' t he
  constructor
  · intro hi hs
    obtain ⟨t', h, hfsd, hrep⟩ := effect_fsd_congr hi hs (exec_next he)
    exact ⟨t', (exec_next_iff (by simp [hi])).2 h, hfsd, hrep⟩
  · intro hi hs
    obtain ⟨t', h, hwsq, hrep⟩ := effect_wsq_congr hi hs (exec_next he)
    exact ⟨t', (exec_next_iff (by simp [hi])).2 h, hwsq, hrep⟩

/-! ### The mark, the outputs and the configuration -/

/-- Inside a run no instruction clears REFUSED (R40). -/
theorem exec_keeps_refused (hi : i ≠ .reset) (he : exec i s = .next t) (hs : s.refused = true) : t.refused = true := by
  cases exec_answer he with
  | refusal => rfl
  | runStarted => exact absurd rfl hi
  | _ => exact hs

/-- RESET keeps every mark: the current one goes into the list of ended runs (log 4). -/
theorem everRefused_of_reset (he : exec .reset s = .next t) : everRefused t = everRefused s := by
  obtain rfl := exec_next he
  simp [everRefused, observe, State.reset, Bool.or_comm]

/-- Settles O50: inside a run by `exec_keeps_refused`, across RESET by `everRefused_of_reset`. -/
theorem theRefusedMarkIsNeverHidden : Obligations.TheRefusedMarkIsNeverHidden := by
  intro i s t he
  refine ⟨fun hi => exec_keeps_refused hi he, fun hs => ?_⟩
  by_cases hi : i = .reset
  · subst hi
    rwa [everRefused_of_reset he]
  · obtain ⟨-, hended⟩ := exec_frame hi he
    simp only [everRefused, Bool.or_eq_true, hended] at hs ⊢
    exact hs.imp_left (exec_keeps_refused hi he)

/-- Settles O52: of the answers inside a run only a byte taken adds a record, and only a byte emitted adds a byte. -/
theorem theOutputsAreAppendOnly : Obligations.TheOutputsAreAppendOnly := by
  intro i s t he hi
  cases exec_answer he with
  | refusal c hrow => exact ⟨.inl rfl, .inl ⟨by rintro rfl; simp [Instr.row] at hrow, rfl⟩⟩
  | configured rev hdr hrow => exact ⟨.inl rfl, .inl ⟨by rintro rfl; simp [Instr.row] at hrow, rfl⟩⟩
  | byteTaken b => exact ⟨(takeByte_frames _ _ _ s.fsd).imp_right fun h => ⟨rfl, h⟩, .inl ⟨nofun, rfl⟩⟩
  | byteEmitted b => exact ⟨.inl rfl, .inr ⟨rfl, b, rfl⟩⟩
  | formatShown r hrow => exact ⟨.inl rfl, .inl ⟨by rintro rfl; simp [Instr.row, engineOf] at hrow, rfl⟩⟩
  | runStarted => exact absurd rfl hi
  | _ => exact ⟨.inl rfl, .inl ⟨nofun, rfl⟩⟩

/-- Settles O53: of the answers inside a run only `configured` writes the configuration. -/
theorem theConfigurationChangesOnlyInHunt : Obligations.TheConfigurationChangesOnlyInHunt := by
  intro i s t he hi
  cases exec_answer he with
  | configured rev hdr hi hf hm hw => exact .inr ⟨hi, hm, by simp, by simp, by simp⟩
  | byteTaken b =>
    obtain ⟨hrev, hfw, hhdr, -⟩ := takeByte_frame _ _ _ s.fsd
    exact .inl ⟨hrev, hfw, hhdr⟩
  | runStarted => exact absurd rfl hi
  | _ => exact .inl ⟨rfl, rfl, rfl⟩

/-! ### Reset, and the step -/

/-- Settles O1: R44's table, register by register. -/
theorem resetGivesEveryRegisterItsResetValue : Obligations.ResetGivesEveryRegisterItsResetValue := ⟨rfl, rfl, rfl⟩

/-- Settles O3: the base case of O4. -/
theorem resetMeetsTheInvariants : Obligations.ResetMeetsTheInvariants := ⟨fsdInv_reset, wsqInv_reset⟩

/-- A numeral outside the width is refused, never cut (30_encoding.md R81). -/
theorem readBits_outside {w n : Nat} {text : Text} (h : readNat? text = some n) (hn : 2 ^ w ≤ n) :
    readBits w text = .error (.outsideType text) := by
  simp [readBits, h, Nat.not_lt.2 hn]

/-- Settles O6: what `issue` answers for the next entry decides the step. -/
theorem aStepRunsTheDecodedInstruction : Obligations.AStepRunsTheDecodedInstruction := by
  refine ⟨fun s i rest => ⟨fun hp => ?_, fun text hp hd => ?_, fun bytes hp hd => ?_⟩, fun s hp => ?_,
    fun s e rest => ⟨fun text hp hd => ?_, fun bytes hp hd => ?_⟩, fun w n text => readBits_outside⟩
  · exact step_of_issue_run (by rw [hp, issue_op])
  · exact step_of_issue_run (by rw [hp, issue_line rest hd]; rfl)
  · exact step_of_issue_run (by rw [hp, issue_word rest hd])
  · exact step_of_issue_nothing (by rw [hp, issue_nil])
  · exact step_of_issue_bad (by rw [hp, issue_line_bad rest hd])
  · exact step_of_issue_bad (by rw [hp, issue_word_bad rest hd])

end Sys2Proof.Machine

/-! The fields of a 5-byte frame as numbers (20_memory.md R65, 30_encoding.md R83). -/

namespace Sys2Proof.Machine

/-- The low bits of a byte are its remainder. -/
theorem toNat_lowBits (b : Byte) (n : Nat) : (b.extractLsb' 0 n).toNat = b.toNat % 2 ^ n := by
  rw [BitVec.extractLsb'_toNat, Nat.shiftRight_zero]

/-- The bits of a byte from a position up to its top are its quotient. -/
theorem toNat_highBits (b : Byte) {k n : Nat} (hkn : k + n = 8) : (b.extractLsb' k n).toNat = b.toNat / 2 ^ k := by
  have hlt : b.toNat / 2 ^ k < 2 ^ n := Nat.div_lt_of_lt_mul (by rw [← Nat.pow_add, hkn]; exact b.isLt)
  rw [BitVec.extractLsb'_toNat, Nat.shiftRight_eq_div_pow, Nat.mod_eq_of_lt hlt]

/-- The two parts of the time over threshold do not overlap, so their OR is a sum (R65). -/
theorem toNat_msbLsb (m : BitVec 4) (l : Byte) :
    (m.setWidth 12 <<< 8 ||| l.setWidth 12).toNat = m.toNat * 256 + l.toNat := by
  have hm : m.toNat * 256 < 4096 := by have := m.isLt; omega
  have hl : l.toNat < 4096 := by have := l.isLt; omega
  calc (m.setWidth 12 <<< 8 ||| l.setWidth 12).toNat
      = m.toNat <<< 8 ||| l.toNat := by
        simp [Nat.shiftLeft_eq, Nat.mod_eq_of_lt hm, Nat.mod_eq_of_lt hl]
    _ = m.toNat * 256 + l.toNat := by rw [← Nat.shiftLeft_add_eq_or_of_lt l.isLt, Nat.shiftLeft_eq]

/-- Settles O14: each field is the low or the high bits of its byte, and R65's OR is `toNat_msbLsb`. -/
theorem hitFieldsAreTheNamedBits : Obligations.HitFieldsAreTheNamedBits := by
  intro b0 b1 b2 b3 b4
  have htot := toNat_msbLsb (b3.extractLsb' 0 4) b4
  rw [toNat_lowBits] at htot
  exact ⟨_, rfl, toNat_highBits b0 rfl, toNat_lowBits b0 3, toNat_highBits b1 rfl, toNat_lowBits b1 6, rfl,
    toNat_lowBits b3 4, rfl, htot⟩

end Sys2Proof.Machine

/-! Lines and raw words read back (30_encoding.md R81 to R83, R91, R102; logs 7, 8). -/

namespace Sys2Proof

open Laws

/-! ### Operands by key -/

section
variable (key : Text) (rest : List Text)

@[simp] theorem field_bits {w : Nat} (b : BitVec w) :
    field key (readBits w) (fieldText key (natText b.toNat) :: rest) = .ok (b, rest) :=
  field_fieldText rest (readBits_natText b)

@[simp] theorem field_nat (n : Nat) : field key readNat (fieldText key (natText n) :: rest) = .ok (n, rest) :=
  field_fieldText rest (readNat_natText n)

@[simp] theorem field_bool (b : Bool) : field key readBool (fieldText key (boolText b) :: rest) = .ok (b, rest) :=
  field_fieldText rest (readBool_boolText b)

@[simp] theorem field_variant (v : Variant) :
    field key readVariant (fieldText key (variantText v) :: rest) = .ok (v, rest) :=
  field_fieldText rest (readVariant_variantText v)

@[simp] theorem field_set (m : BitVec 256) : field key readSet (fieldText key (setText m) :: rest) = .ok (m, rest) :=
  field_fieldText rest (readSet_setText m)

@[simp] theorem field_byteList (o c : Byte) (bs : List Byte) :
    field key (readByteList o c) (fieldText key (byteListText o c bs) :: rest) = .ok (bs, rest) :=
  field_fieldText rest (readByteList_byteListText o c bs)

end

/-! ### An encoded instruction read back -/

theorem finish_nil {i : Instr} (h : i.wellFormed = true) : finish i [] = .ok i := by
  simp [finish, h]

theorem readJob_jobTokens (j : Job) : readJob (jobTokens j) = .ok (j, []) := by
  cases hp : j.proto
  · exact readJob_legacy j hp
  · exact readJob_spi j hp

/-- The operands of every row read back. -/
theorem readOperands_operandTokens {i : Instr} (h : i.wellFormed = true) :
    readOperands i.row (operandTokens i) = .ok i := by
  cases i with
  | gen job => simp only [readOperands, Instr.row, operandTokens, readJob_jobTokens, bind, Except.bind, finish_nil h]
  | _ =>
    simp only [readOperands, Instr.row, operandTokens, bind, Except.bind, field_bits, field_nat, field_bool,
      field_variant, field_set, field_byteList, readBits_byteText, finish_nil h]

theorem encodeTokens_clean (i : Instr) : ∀ t ∈ encodeTokens i, CleanToken t := by
  cases i with
  | config rev fw hdr => exact TokensClean.config rev fw hdr
  | configChips rev fw n => exact TokensClean.configChips rev fw n
  | push b => exact TokensClean.push b
  | endBurst => exact TokensClean.endBurst
  | gen job => exact TokensClean.gen job
  | step => exact TokensClean.step
  | len => exact TokensClean.len
  | reset => exact TokensClean.reset
  | fmtHdr i w => exact TokensClean.fmtHdr i w
  | fmtHit5 c p k r l t e m n => exact TokensClean.fmtHit5 c p k r l t e m n
  | fmtHitN raw => exact TokensClean.fmtHitN raw
  | legData v x => exact TokensClean.legData v x
  | legPatGecco x c => exact TokensClean.legPatGecco x c
  | legPatAsic x c => exact TokensClean.legPatAsic x c
  | legTrailer v c => exact TokensClean.legTrailer v c
  | spiHdr tag ident => exact TokensClean.spiHdr tag ident
  | spiBit x => exact TokensClean.spiBit x
  | spiLoad => exact TokensClean.spiLoad
  | spiEmpty => exact TokensClean.spiEmpty
  | lenHdr n => exact TokensClean.lenHdr n

theorem tokens_encode (i : Instr) : tokens (encode i) = encodeTokens i := tokens_joinWith (encodeTokens_clean i)

/-- A row's name is found, so the operands decide. -/
theorem decodeTokens_name (r : Row) (ops : List Text) : decodeTokens (r.name :: ops) = readOperands r ops := by
  simp only [decodeTokens, Row.ofName_name]

/-- As a line of a program, one operation stands for itself. -/
theorem expandTokens_name {r : Row} {ops : List Text} {i : Instr} (h : readOperands r ops = .ok i) :
    expandTokens (r.name :: ops) = .ok ⟨[i], false⟩ := by
  obtain ⟨hpushs, hdecode, hdrain, hgenerate⟩ := r.name_ne_pseudo
  simp only [expandTokens, if_neg hpushs, if_neg hdecode, if_neg hdrain, if_neg hgenerate, decodeTokens_name, h]
  rfl

/-- Settles O8: the line reads back as its tokens (`tokens_encode`), and they as the operands of its row. -/
theorem decodingAnEncodedInstructionGivesItBack : Obligations.DecodingAnEncodedInstructionGivesItBack := by
  intro i h
  have hops := readOperands_operandTokens h
  rw [decodeInstr, decodeLine, tokens_encode]
  exact ⟨(decodeTokens_name _ _).trans hops, expandTokens_name hops⟩

/-! ### A numeral outside its operand's type -/

section
open TokensClean

theorem readBits_natText_outside {w n : Nat} (h : 2 ^ w ≤ n) :
    readBits w (natText n) = .error (.outsideType (natText n)) :=
  Machine.readBits_outside (readNat?_natText n) h

/-- The characters of a decimal numeral are digits. -/
theorem mem_decDigits {fuel n : Nat} {c : Byte} (h : c ∈ decDigits fuel n) : ∃ d, d < 10 ∧ c = decDigit d := by
  induction fuel generalizing n with
  | zero => simp [decDigits] at h
  | succ fuel ih =>
    rw [decDigits] at h
    split at h
    · rename_i h10
      exact ⟨n, h10, List.mem_singleton.1 h⟩
    · rcases List.mem_append.1 h with h | h
      · exact ih h
      · exact ⟨n % 10, Nat.mod_lt _ (by decide), List.mem_singleton.1 h⟩

theorem natText_not_comma {n : Nat} {c : Byte} (h : c ∈ natText n) : isComma c = false := by
  have hdigit : ∀ d, d < 10 → isComma (decDigit d) = false := by decide
  obtain ⟨d, hd, rfl⟩ := mem_decDigits h
  exact hdigit d hd

/-- A header set of one value reads that value as a byte. -/
theorem readSet_outside {n : Nat} (h : 2 ^ 8 ≤ n) :
    readSet (0x7B#8 :: (natText n ++ [0x7D#8])) = .error (.outsideType (natText n)) := by
  have hsplit : splitAtSep isComma (natText n) = [natText n] := splitAtSep_clean fun _ => natText_not_comma
  simp [readSet, readByteList, natText_ne_nil, hsplit, readBytes, readBits_natText_outside h]

theorem readTarget_outside {n : Nat} (h : 2 ^ 6 ≤ n) :
    readTarget (kChip ++ 0x3A#8 :: natText n) = .error (.outsideType (natText n)) := by
  have hchip : kChip ++ 0x3A#8 :: natText n = (kChip ++ [0x3A#8]) ++ natText n := by simp
  have hbcast : (kChip ++ [0x3A#8]) ++ natText n ≠ kBcast := by simp [kChip, kBcast, chars]
  rw [hchip, readTarget, if_neg hbcast, stripPrefix_self]
  simp only [readBits_natText_outside h]

theorem readJob_legacy_cons (toks : List Text) : readJob (kLegacy :: toks) = readLegacyJob toks := rfl

theorem readJob_spi_cons (toks : List Text) : readJob (kSpi :: toks) = readSpiJob toks := rfl

/-- The line of a row with clean operands decodes to what the operands say. -/
theorem decodeInstr_line {r : Row} {ops : List Text} (h : ∀ t ∈ ops, CleanToken t) :
    decodeInstr (joinWith 0x20#8 (r.name :: ops)) = readOperands r ops := by
  have hclean : ∀ t ∈ r.name :: ops, CleanToken t := List.forall_mem_cons.2 ⟨clean_name r, h⟩
  rw [decodeInstr, tokens_joinWith hclean, decodeTokens_name]

theorem clean_numeralSet (n : Nat) : ∀ c ∈ 0x7B#8 :: (natText n ++ [0x7D#8]), cleanChar c = true := by
  simp only [List.forall_mem_cons, List.forall_mem_append]
  exact ⟨rfl, (clean_nat n).2, rfl, by simp⟩

theorem clean_numeralTarget (n : Nat) : ∀ c ∈ kChip ++ 0x3A#8 :: natText n, cleanChar c = true := by
  simp only [List.forall_mem_cons, List.forall_mem_append]
  exact ⟨by decide, rfl, (clean_nat n).2⟩

theorem decodeInstr_config {rev fw hdr : Text} (hrev : ∀ c ∈ rev, cleanChar c = true)
    (hfw : ∀ c ∈ fw, cleanChar c = true) (hhdr : ∀ c ∈ hdr, cleanChar c = true) :
    decodeInstr (joinWith 0x20#8 [Row.config.name, fieldText kRev rev, fieldText kFw fw, fieldText kHdr hdr]) =
      readOperands .config [fieldText kRev rev, fieldText kFw fw, fieldText kHdr hdr] := by
  refine decodeInstr_line ?_
  simp only [List.forall_mem_cons]
  exact ⟨clean_field rfl hrev, clean_field rfl hfw, clean_field rfl hhdr, by simp⟩

theorem decodeInstr_configChips {rev fw nchips : Text} (hrev : ∀ c ∈ rev, cleanChar c = true)
    (hfw : ∀ c ∈ fw, cleanChar c = true) (hnchips : ∀ c ∈ nchips, cleanChar c = true) :
    decodeInstr
        (joinWith 0x20#8 [Row.configChips.name, fieldText kRev rev, fieldText kFw fw, fieldText kNchips nchips]) =
      readOperands .configChips [fieldText kRev rev, fieldText kFw fw, fieldText kNchips nchips] := by
  refine decodeInstr_line ?_
  simp only [List.forall_mem_cons]
  exact ⟨clean_field rfl hrev, clean_field rfl hfw, clean_field rfl hnchips, by simp⟩

/-- Settles O58: the numeral's operand reads to its error, and the first error ends the row. -/
theorem anOperandOutsideItsTypeIsNoOperation : Obligations.AnOperandOutsideItsTypeIsNoOperation := by
  have clean_set (m : BitVec 256) : ∀ c ∈ setText m, cleanChar c = true := (clean_byteList rfl rfl _).2
  refine ⟨fun n h => ?_, fun n h fw hdr => ?_, fun n h rev hdr => ?_, fun n h rev fw => ?_, fun n h fw nchips => ?_,
    fun n h rev nchips => ?_, fun n h rev fw => ?_, fun n h load vec => ?_, fun n h v clkdiv vec => ?_⟩
  · rw [decodeInstr_line (by simp [clean_nat])]
    simp only [readOperands, readBits_natText_outside (w := 8) h, bind, Except.bind]
  · rw [decodeInstr_config (clean_nat n).2 (clean_nat fw).2 (clean_set hdr)]
    simp only [readOperands, field_error _ (readBool_outside h), bind, Except.bind]
  · rw [decodeInstr_config (clean_bool rev).2 (clean_nat n).2 (clean_set hdr)]
    simp only [readOperands, field_bool, field_error _ (readBits_natText_outside (w := 4) h), bind, Except.bind]
  · rw [decodeInstr_config (clean_bool rev).2 (clean_nat _).2 (clean_numeralSet n)]
    simp only [readOperands, field_bool, field_bits, field_error _ (readSet_outside h), bind, Except.bind]
  · rw [decodeInstr_configChips (clean_nat n).2 (clean_nat fw).2 (clean_nat nchips).2]
    simp only [readOperands, field_error _ (readBool_outside h), bind, Except.bind]
  · rw [decodeInstr_configChips (clean_bool rev).2 (clean_nat n).2 (clean_nat nchips).2]
    simp only [readOperands, field_bool, field_error _ (readBits_natText_outside (w := 4) h), bind, Except.bind]
  · rw [decodeInstr_configChips (clean_bool rev).2 (clean_nat _).2 (clean_nat n).2]
    simp only [readOperands, field_bool, field_bits, field_error _ (readBits_natText_outside (w := 6) h), bind,
      Except.bind]
  · have hclean : ∀ t ∈ [kSpi, fieldText kTarget (kChip ++ 0x3A#8 :: natText n), fieldText kLoad (boolText load),
        fieldText kVec (vecText vec)], CleanToken t := by
      simp only [List.forall_mem_cons]
      exact ⟨clean_of_text rfl, clean_field rfl (clean_numeralTarget n), clean_field rfl (clean_bool load).2,
        clean_field rfl (clean_vec vec).2, by simp⟩
    rw [decodeInstr_line hclean]
    simp only [readOperands, readJob_spi_cons, readSpiJob, field_error _ (readTarget_outside h), bind, Except.bind]
  · have hclean : ∀ t ∈ [kLegacy, fieldText kVariant (variantText v), fieldText kClkdiv (natText clkdiv),
        fieldText kLoad (natText n), fieldText kVec (vecText vec)], CleanToken t := by
      simp only [List.forall_mem_cons]
      exact ⟨clean_of_text rfl, clean_field rfl (clean_variant v).2, clean_field rfl (clean_nat clkdiv).2,
        clean_field rfl (clean_nat n).2, clean_field rfl (clean_vec vec).2, by simp⟩
    rw [decodeInstr_line hclean]
    simp only [readOperands, readJob_legacy_cons, readLegacyJob, field_variant, field_nat,
      field_error _ (readBool_outside h), bind, Except.bind]

end

/-! ### Lines and words of fixed form -/

/-- Settles O10: each line is closed text, so its decoding is computed. -/
theorem linesOfTheSpecDecodeToTheirOperations : Obligations.LinesOfTheSpecDecodeToTheirOperations := by
  refine ⟨?_, ?_, ?_, ?_, ?_, ?_⟩ <;> decide

section
variable {a b c : Nat} (x : BitVec a) (y : BitVec b) (z : BitVec c)

theorem extractLsb'_append_middle : (x ++ y ++ z).extractLsb' c b = y := by
  rw [BitVec.extractLsb'_append_eq_of_le (Nat.le_refl c), Nat.sub_self, BitVec.extractLsb'_append_eq_right]

theorem extractLsb'_append_top : (x ++ y ++ z).extractLsb' (b + c) a = x := by
  rw [BitVec.extractLsb'_append_eq_of_le (Nat.le_add_left c b), Nat.add_sub_cancel, BitVec.extractLsb'_append_eq_left]

end

/-- Settles O9: every field of the layout is the bits `decodeWord` reads. -/
theorem tableWordsGiveTheirFieldsBack : Obligations.TableWordsGiveTheirFieldsBack := by
  refine ⟨fun i w => ?_, fun c p k r l t e m n => ?_, fun len => ?_⟩
  · simp only [encodeWord, decodeWord, headerLayout, Option.map_some, BitVec.extractLsb'_append_eq_left,
      BitVec.extractLsb'_append_eq_right]
  · have hk : (k ++ r ++ l).extractLsb' 7 1 = k := extractLsb'_append_top k r l
    have hr : (k ++ r ++ l).extractLsb' 6 1 = r := extractLsb'_append_middle k r l
    simp only [encodeWord, decodeWord, hit5Layout, Option.map_some, hk, hr, BitVec.extractLsb'_append_eq_left,
      BitVec.extractLsb'_append_eq_right]
  · have hlen : len.extractLsb' 8 8 ++ len.extractLsb' 0 8 = len := BitVec.extractLsb'_append_extractLsb'
    simp only [encodeWord, decodeWord, lenHdrLayout, Option.map_some, hlen]

end Sys2Proof

/-! The byte formats build the bytes of their fields (30_encoding.md sections 3, 4 and 6; log 6). -/

namespace Sys2Proof.Machine

/-! ### Bits as numbers -/

/-- Bits side by side do not overlap, so their value is a sum. -/
theorem toNat_append_eq_add {m n : Nat} (x : BitVec m) (y : BitVec n) :
    (x ++ y).toNat = x.toNat * 2 ^ n + y.toNat := by
  rw [BitVec.toNat_append, ← Nat.shiftLeft_add_eq_or_of_lt y.isLt, Nat.shiftLeft_eq]

theorem lenHdrLayout_toNat (len : BitVec 16) :
    (lenHdrLayout len).1.toNat = len.toNat / 256 ∧ (lenHdrLayout len).2.toNat = len.toNat % 256 := by
  have hlt : len.toNat / 256 < 256 := by have := len.isLt; omega
  constructor
  · simpa [lenHdrLayout, Nat.shiftRight_eq_div_pow] using hlt
  · simp [lenHdrLayout]

/-- Settles O35: the length fits 16 bits, and the layout cuts them in two bytes. -/
theorem theLengthHeaderIsBigEndian : Obligations.TheLengthHeaderIsBigEndian := by
  intro len hlen
  have hlt : len < 2 ^ 16 := Nat.lt_succ_of_le hlen
  have h := lenHdrLayout_toNat (BitVec.ofNat 16 len)
  rwa [BitVec.toNat_ofNat, Nat.mod_eq_of_lt hlt] at h

/-- Settles O12: FW - 1 lies below the chip index's lowest bit, so the OR is the sum. -/
theorem headerValueIsExact : Obligations.HeaderValueIsExact := by
  intro i fw hi h1 h8
  have hlow : fw - 1 < 2 ^ 3 := by omega
  have hsum : headerValue i fw = i * 8 + (fw - 1) := by simp [headerValue, idBits, Nat.shiftLeft_eq]
  refine ⟨by omega, ?_, by omega⟩
  rw [headerValue, Nat.shiftLeft_add_eq_or_of_lt hlow]

/-- Bytes that agree under a mask agree on bits where the mask is all ones. -/
theorem extractLsb'_congr_of_mask {b b' m : Byte} (h : b &&& m = b' &&& m) {k n : Nat}
    (hm : m.extractLsb' k n = BitVec.allOnes n) : b.extractLsb' k n = b'.extractLsb' k n := by
  have hbits := congrArg (BitVec.extractLsb' k n) h
  rwa [BitVec.extractLsb'_and, BitVec.extractLsb'_and, hm, BitVec.and_allOnes, BitVec.and_allOnes] at hbits

/-- Settles O15: each field of byte1 and byte3 lies under the mask of its unreserved bits. -/
theorem reservedBitsEnterNoField : Obligations.ReservedBitsEnterNoField := by
  intro b0 b1 b1' b2 b3 b3' b4 h1 h3
  have hcolumn : b1.extractLsb' 7 1 = b1'.extractLsb' 7 1 := extractLsb'_congr_of_mask h1 (by decide)
  have hlocation : b1.extractLsb' 0 6 = b1'.extractLsb' 0 6 := extractLsb'_congr_of_mask h1 (by decide)
  have hmsb : b3.extractLsb' 0 4 = b3'.extractLsb' 0 4 := extractLsb'_congr_of_mask h3 (by decide)
  exact ⟨by simp only [fdec5, hcolumn, hlocation, hmsb], rfl⟩

/-! ### Frame formats -/

theorem ifFormat_of_ok {ok : Bool} {k : State → Result} {s : State} (h : ok = true) : ifFormat ok k s = k s :=
  if_pos h

theorem ifFormat_of_not_ok {ok : Bool} {k : State → Result} {s : State} (h : ¬ ok = true) :
    ifFormat ok k s = .refused .noSuchFormat :=
  if_neg h

theorem hitNWidthOk_iff {raw : List Byte} :
    hitNWidthOk raw = true ↔ 1 ≤ raw.length ∧ raw.length ≤ 8 ∧ raw.length ≠ 5 := by
  simp [hitNWidthOk, and_assoc]

/-- The fields a hit frame was built from come back, whatever its reserved bits (R83, R98). -/
theorem fdec5_hit5Layout (c : BitVec 5) (p : BitVec 3) (k r : BitVec 1) (l : BitVec 6) (t : BitVec 8)
    (e m : BitVec 4) (n : BitVec 8) :
    fdec5 (hit5Layout c p k r l t e m n) =
      some
        { chipId := c, payload := p, isColumn := k, location := l, timestamp := t, totMsb := m, totLsb := n,
          timeOverThreshold := BitVec.ofNat 12 (m.toNat * 256 + n.toNat) } := by
  have hk : (k ++ r ++ l).extractLsb' 7 1 = k := extractLsb'_append_top k r l
  have htot : m.setWidth 12 <<< 8 ||| n.setWidth 12 = BitVec.ofNat 12 (m.toNat * 256 + n.toNat) := by
    rw [← toNat_msbLsb, BitVec.ofNat_toNat, BitVec.setWidth_eq]
  simp only [hit5Layout, fdec5, hk, htot, BitVec.extractLsb'_append_eq_left, BitVec.extractLsb'_append_eq_right]

/-- Settles O55: the header and the record by their layouts, and FMT-HITN by whether its width is one (log 6). -/
theorem frameFormatsBuildTheirBytes : Obligations.FrameFormatsBuildTheirBytes := by
  intro s
  refine ⟨fun i w => ⟨headerLayout i w, toNat_append_eq_add i w, rfl⟩, fun c p k r l t e m n => ?_,
    fun raw h1 h8 h5 => ?_, fun raw h => ?_⟩
  · refine ⟨c ++ p, k ++ r ++ l, e ++ m, toNat_append_eq_add c p, ?_, toNat_append_eq_add e m, ?_⟩
    · rw [toNat_append_eq_add (k ++ r) l, toNat_append_eq_add k r]
      omega
    · rw [← fdec5_hit5Layout c p k r l t e m n]
      rfl
  · have hne : BitVec.ofNat 4 raw.length ≠ 5#4 := by
      intro h
      have hmod : raw.length % 2 ^ 4 = 5 := by simpa using congrArg BitVec.toNat h
      omega
    refine (ifFormat_of_ok (hitNWidthOk_iff.2 ⟨h1, h8, h5⟩)).trans ?_
    rw [showRecord, frameRecord, if_neg hne]
  · exact ifFormat_of_not_ok fun hok => by
      have := hitNWidthOk_iff.1 hok
      omega

/-! ### Legacy and SPI formats -/

theorem dividerOk_of_pos {c : Nat} (h : 1 ≤ c) : dividerOk c = true := decide_eq_true h

/-- Settles O56: `stretch` repeats each byte of the pattern, and a divider of 0 is no format (log 6). -/
theorem legacyFormatsBuildTheirBytes : Obligations.LegacyFormatsBuildTheirBytes := by
  intro s
  refine ⟨fun v x => rfl, fun x c d hc hd => ?_, fun x c d hc hd => ?_, fun v c hc => ?_, fun v x => ⟨rfl, rfl, rfl⟩⟩
  · subst hd
    refine (ifFormat_of_ok (dividerOk_of_pos hc)).trans ?_
    simp [showBytes, patGecco, legacyData, stretch, rep]
  · subst hd
    refine (ifFormat_of_ok (dividerOk_of_pos hc)).trans ?_
    simp [showBytes, patAsic, legacyData, stretch, rep]
  · exact ifFormat_of_ok (dividerOk_of_pos hc)

/-- Settles O57: the layouts of R89 and R91 as numbers, and the parameters of R90. -/
theorem spiAndLengthFormatsBuildTheirBytes : Obligations.SpiAndLengthFormatsBuildTheirBytes := by
  intro s
  refine ⟨fun tag id => ⟨spiHdrLayout tag id, toNat_append_eq_add tag id, rfl⟩, fun x => rfl, rfl, rfl, fun len => ?_⟩
  obtain ⟨hhi, hlo⟩ := lenHdrLayout_toNat len
  exact ⟨_, _, hhi, hlo, rfl⟩

end Sys2Proof.Machine

/-! The wave of a legal job: its lines, its length and its bytes (30_encoding.md R88, R94; 41_waveform.md R170 to
R182). -/

namespace Sys2Proof.Machine

/-! ### The parameters -/

/-- The free choices of Config, made legal, are legal (R170; log 5). -/
theorem legalParams_params : LegalParams params := by
  have hline (v : Variant) (k : Fin 8) : oneLine (lineMask (lines v k)) := oneLine_lineMask _
  have hne (v : Variant) {a b : Fin 8} (h : a ≠ b) : lineMask (lines v a) ≠ lineMask (lines v b) :=
    lineMask_perm_ne _ h
  refine ⟨⟨fun v => hline v 0, fun v => hline v 1, fun v => hline v 2, hline .asic 3⟩,
    fun v => ⟨hne v (by decide), hne v (by decide), hne v (by decide)⟩,
    ⟨hne .asic (by decide), hne .asic (by decide), hne .asic (by decide)⟩, fun v c hc => ?_, ?_, ?_⟩
  · have hpos : 0 < (trailerUnits v - loadHigh) * c - 1 := by
      cases v <;> simp only [trailerUnits, loadHigh] <;> omega
    have := Nat.mod_lt (Config.loadPreChoice v c) hpos
    simp only [params, oneTo]
    omega
  · have := Config.spiTagGap.isLt
    simp only [params]
    bv_omega
  · have := Config.spiBitGap.isLt
    simp only [params]
    bv_omega

/-- Settles O30: LOAD_PRE lies in R170's range, so low bytes remain on both sides of the pulse. -/
theorem theLoadPulseIsBracketedByLowBytes : Obligations.TheLoadPulseIsBracketedByLowBytes := by
  intro p v c hp hc
  obtain ⟨hpre, hpost⟩ := legalParams_loadPre hp (v := v) hc
  have hunits : (trailerUnits v - loadHigh) * c + 10 * c = (if v = .gecco then 20 else 30) * c := by
    rw [← Nat.add_mul]
    cases v <;> rfl
  exact ⟨p.loadPre v c, (trailerUnits v - loadHigh) * c - p.loadPre v c, hpre, by omega, rfl, by omega, rfl⟩

/-! ### The lines a legacy byte drives -/

section
variable {p : Params}

/-- A data byte is 0 or one line, so a line other than SIN adds exactly its bit. -/
theorem legacyData_line (hp : LegalParams p) (v : Variant) (x : Bool) {m : Byte} (hm : oneLine m) (hne : p.sin v ≠ m) :
    legacyData p v x &&& m = 0#8 ∧ oneLine ((legacyData p v x ||| m) ^^^ legacyData p v x) := by
  obtain ⟨⟨hsin, -⟩, -⟩ := hp
  cases x
  · exact ⟨BitVec.zero_and, by simpa [legacyData] using hm⟩
  · obtain ⟨hand, hxor⟩ := byte_disjoint (hsin v) hm hne
    exact ⟨hand, by simpa [legacyData, hxor] using hm⟩

theorem legacyData_masked (v : Variant) (x : Bool) : legacyData p v x &&& ~~~lineBits p v = 0#8 := by
  cases x
  · exact BitVec.zero_and
  · cases v
    · exact mask_mono mask_self
    · exact mask_mono (mask_mono mask_self)

theorem pattern_masked (v : Variant) (x : Bool) : ∀ b ∈ pattern p v x, b &&& ~~~lineBits p v = 0#8 := by
  have hd := legacyData_masked (p := p) v x
  cases v
  · have hck1 : p.ck1 .gecco &&& ~~~lineBits p .gecco = 0#8 := mask_mono mask_right
    simp only [pattern, patGecco, List.forall_mem_cons]
    exact ⟨hd, mask_or hd hck1, hd, by simp⟩
  · have hck1 : p.ck1 .asic &&& ~~~lineBits p .asic = 0#8 := mask_mono (mask_mono mask_right)
    have hck2 : p.ck2 &&& ~~~lineBits p .asic = 0#8 := mask_mono mask_right
    simp only [pattern, patAsic, List.forall_mem_cons]
    exact ⟨hd, mask_or hd hck1, hd, mask_or hd hck2, hd, by simp⟩

theorem trailer_masked (v : Variant) (c : Nat) : ∀ b ∈ trailer p v c, b &&& ~~~lineBits p v = 0#8 := by
  have hld : p.ld v &&& ~~~lineBits p v = 0#8 := by cases v <;> exact mask_right
  intro b hb
  simp only [trailer, rep, List.mem_append, List.mem_replicate] at hb
  rcases hb with (⟨-, rfl⟩ | ⟨-, rfl⟩) | ⟨-, rfl⟩
  · exact BitVec.zero_and
  · exact hld
  · exact BitVec.zero_and

theorem mem_stretch {c : Nat} {bs : List Byte} {b : Byte} (h : b ∈ stretch c bs) : b ∈ bs := by
  obtain ⟨x, hx, hb⟩ := List.mem_flatMap.1 h
  exact List.eq_of_mem_replicate hb ▸ hx

theorem wave_legacy (p : Params) {job : Job} (hp : job.proto = .legacy) :
    wave p job = legacyBody p job ++ if job.load = true then trailer p job.variant job.clkdiv else [] := by
  simp only [wave, hp]

/-- The bytes of a LEGACY wave are bytes of a pattern or of the load trailer. -/
theorem mem_wave_legacy {job : Job} (hp : job.proto = .legacy) {b : Byte} (h : b ∈ wave p job) :
    (∃ x, b ∈ pattern p job.variant x) ∨ b ∈ trailer p job.variant job.clkdiv := by
  rw [wave_legacy p hp] at h
  rcases List.mem_append.1 h with h | h
  · obtain ⟨x, -, hx⟩ := List.mem_flatMap.1 h
    exact .inl ⟨x, mem_stretch hx⟩
  · split at h
    · exact .inr h
    · simp at h

end

/-- Settles O31: a clock line adds its own bit (`legacyData_line`), and a wave is patterns and a trailer. -/
theorem legacyBytesDriveOnlyTheLines : Obligations.LegacyBytesDriveOnlyTheLines := by
  intro p v hp
  have ⟨⟨_, hck1, _, hck2⟩, hlines, ⟨hck2sin, _⟩, _⟩ := hp
  obtain ⟨hsinck1, -⟩ := hlines v
  refine ⟨fun x => legacyData_line hp v x (hck1 v) hsinck1, fun x => legacyData_line hp .asic x hck2 hck2sin.symm, ?_⟩
  rintro job hproto rfl b hb
  rcases mem_wave_legacy hproto hb with ⟨x, hx⟩ | hb
  · exact pattern_masked _ x b hx
  · exact trailer_masked _ _ b hb

/-! ### The length and the bytes of a wave -/

section
variable {p : Params} {job : Job}

theorem wave_spi (p : Params) (hp : job.proto = .spi) : wave p job = spiSeq p job := by
  simp only [wave, hp]

theorem jobLength_legacy (hp : job.proto = .legacy) :
    jobLength job =
      job.vec.length * (patLen job.variant * job.clkdiv) +
        if job.load = true then trailerUnits job.variant * job.clkdiv else 0 := by
  simp only [jobLength, hp, Nat.add_mul, Nat.mul_assoc]
  split <;> simp

theorem jobLength_spi (hp : job.proto = .spi) :
    jobLength job = 1 + job.vec.length + if job.load = true then 2 * job.nload else 0 := by
  simp only [jobLength, hp]

/-- A legal job's wave has the job's length (41_waveform.md R173). -/
theorem wave_length (hp : LegalParams p) (hj : jobLegal job = true) : (wave p job).length = jobLength job := by
  cases hproto : job.proto
  · rw [wave_legacy p hproto, jobLength_legacy hproto, List.length_append, legacyBody_length]
    split
    · rw [trailer_length hp (jobLegal_clkdiv hj hproto)]
    · rfl
  · rw [wave_spi p hproto, jobLength_spi hproto]
    simp only [spiSeq, List.length_append, List.length_map, List.length_singleton]
    split
    · simp only [List.length_append, rep_length]
      omega
    · rfl

theorem legacyBody_getElem? (hc : 1 ≤ job.clkdiv) {t : Nat}
    (ht : t < job.vec.length * (patLen job.variant * job.clkdiv)) :
    (legacyBody p job)[t]? =
      some ((pattern p job.variant (job.vec.getD (t / (patLen job.variant * job.clkdiv)) false)).getD
        (t % (patLen job.variant * job.clkdiv) / job.clkdiv) 0) := by
  have hlen (x : Bool) : (stretch job.clkdiv (pattern p job.variant x)).length = patLen job.variant * job.clkdiv := by
    rw [stretch_length, pattern_length]
  have hpos : 0 < patLen job.variant * job.clkdiv := Nat.pos_of_ne_zero fun h => by simp [h] at ht
  have hk : t / (patLen job.variant * job.clkdiv) < job.vec.length :=
    Nat.div_lt_of_lt_mul (ht.trans_eq (Nat.mul_comm _ _))
  have hj : t % (patLen job.variant * job.clkdiv) / job.clkdiv < patLen job.variant :=
    Nat.div_lt_of_lt_mul ((Nat.mod_lt _ hpos).trans_eq (Nat.mul_comm _ _))
  rw [legacyBody, flatMap_getElem? _ _ hlen hpos]
  simp only [List.getElem?_eq_getElem hk, Option.bind_some, stretch_getElem? hc, pattern_getElem? _ _ _ hj,
    List.getD_eq_getElem _ _ hk]

theorem legacy_getElem? (hp : LegalParams p) (hproto : job.proto = .legacy) (hc : 1 ≤ job.clkdiv) {t : Nat}
    (ht : t < jobLength job) : (wave p job)[t]? = some (legacyByteAt p job t) := by
  rw [jobLength_legacy hproto] at ht
  simp only [wave_legacy p hproto, legacyByteAt, List.getElem?_append, legacyBody_length, Nat.mul_assoc]
  split
  · rename_i hbody
    exact legacyBody_getElem? hc hbody
  · split at ht
    · rename_i hload
      rw [if_pos hload]
      exact trailer_getElem? hp hc (by omega)
    · omega

theorem spi_getElem? (hproto : job.proto = .spi) {t : Nat} (ht : t < jobLength job) :
    (wave p job)[t]? = some (spiByteAt p job t) := by
  rw [jobLength_spi hproto] at ht
  rw [wave_spi p hproto, spiSeq, List.append_assoc, List.singleton_append]
  cases t with
  | zero => rfl
  | succ u =>
    rw [List.getElem?_cons_succ, List.getElem?_append, List.length_map]
    by_cases hbit : u < job.vec.length
    · simp [spiByteAt, hbit]
    · have hload : job.load = true := by
        by_contra h
        rw [if_neg h] at ht
        omega
      rw [if_pos hload] at ht
      by_cases hhigh : u - job.vec.length < job.nload
      · have : u + 1 ≤ job.vec.length + job.nload := by omega
        simp [spiByteAt, hbit, hload, rep, List.getElem?_append, hhigh, this]
      · have hempty : u - job.vec.length - job.nload < job.nload := by omega
        have : ¬ u + 1 ≤ job.vec.length + job.nload := by omega
        simp [spiByteAt, hbit, hload, rep, List.getElem?_append, hhigh, hempty, this]

/-- The byte STEP computes is the byte of the wave (R182). -/
theorem wave_getElem? (hp : LegalParams p) (hj : jobLegal job = true) {t : Nat} (ht : t < jobLength job) :
    (wave p job)[t]? = some (byteAt p job t) := by
  cases hproto : job.proto
  · simpa only [byteAt, hproto] using legacy_getElem? hp hproto (jobLegal_clkdiv hj hproto) ht
  · simpa only [byteAt, hproto] using spi_getElem? hproto ht

end

end Sys2Proof.Machine

/-! The schedule runs what its lines and its DRAINs stand for (30_encoding.md R103; log 3). -/

namespace Sys2Proof.Machine

variable {s t : State} {rest : List HostItem}

/-- A schedule that issues what another one does steps as that one does. -/
theorem step_of_issue_eq (h : issue s.wsq.phase s.pending = issue s.wsq.phase rest) :
    step s = step { s with pending := rest } := by
  simp only [step, h]

theorem step_drain_run (hp : s.pending = .drain :: rest) (hr : s.wsq.phase = .run) : step s = exec .step s := by
  rw [step_of_issue_run (by rw [hp, hr, issue_drain_run]), ← hp]

/-- Settles O7: what `issue` answers for the line or the DRAIN decides the step. -/
theorem pseudoOperationsIssueTheirExpansion : Obligations.PseudoOperationsIssueTheirExpansion := by
  refine ⟨fun s text i more rest hp hd => ?_, fun s text i more rest hp hd => ?_,
    fun s rest hp => ⟨step_drain_run hp, fun hi => ?_⟩,
    fun s text rest hp hd => ⟨fun hr => ?_, fun hi => ?_⟩, fun s text rest hp hd => ?_⟩
  · exact step_of_issue_run (by rw [hp, issue_line rest hd]; rfl)
  · exact step_of_issue_run (by rw [hp, issue_line rest hd]; rfl)
  · exact step_of_issue_eq (by rw [hp, hi, issue_drain_idle])
  · exact step_of_issue_run (by rw [hp, issue_line_nil rest hd, hr, if_pos rfl, issue_drain_run])
  · exact step_of_issue_eq (by rw [hp, issue_line_nil rest hd, hi, if_pos rfl, issue_drain_idle])
  · exact step_of_issue_eq (by rw [hp, issue_line_nil rest hd, if_neg Bool.false_ne_true])

/-! ### A DRAIN runs a job to its end -/

/-- The WSQ has emitted the first `pos` bytes of a job of length `jobLength job`, and the next entry is a DRAIN. -/
structure Draining (job : Job) (rest : List HostItem) (pos : Nat) (s : State) : Prop where
  pending : s.pending = .drain :: rest
  fault : s.wsq.fault = none
  job_eq : s.wsq.job = some job
  jobLen : s.wsq.jobLen = some (jobLength job)
  pos_eq : s.wsq.pos = pos
  phase : s.wsq.phase = if pos = jobLength job then .idle else .run

/-- One step of a draining job emits its next byte. -/
theorem Draining.emits_next {job : Job} {pos : Nat} (h : Draining job rest pos s) (hlt : pos < jobLength job) :
    ∃ t, step s = .next t ∧ Draining job rest (pos + 1) t ∧
      t.wsq.out = s.wsq.out ++ [byteAt params job pos] := by
  obtain ⟨hpending, hfault, hjob, hlen, rfl, hphase⟩ := h
  rw [if_neg (Nat.ne_of_lt hlt)] at hphase
  refine ⟨_, (step_drain_run hpending hphase).trans
    (execStep_next.2 ⟨hfault, job, jobLength job, hphase, hjob, hlen, hlt, rfl⟩), ?_, rfl⟩
  exact ⟨hpending, hfault, hjob, hlen, rfl, rfl⟩

theorem run_succ_of_step {k : Nat} (h : step s = .next t) : Host.Core.run core (k + 1) s = Host.Core.run core k t := by
  have hcore : core.step s = .next t := h
  simp only [Host.Core.run, hcore]

/-- A draining job that has `k` bytes left emits them in `k` steps, and is then idle. -/
theorem Draining.run_to_end {job : Job} (hj : jobLegal job = true) {k pos : Nat} (h : Draining job rest pos s)
    (hk : pos + k = jobLength job) :
    ∃ t, Host.Core.run core k s = .next t ∧ Draining job rest (jobLength job) t ∧
      t.wsq.out = s.wsq.out ++ (wave params job).drop pos := by
  have hlen : (wave params job).length = jobLength job := wave_length legalParams_params hj
  induction k generalizing pos s with
  | zero =>
    obtain rfl : pos = jobLength job := hk
    exact ⟨s, rfl, h, by rw [List.drop_eq_nil_of_le hlen.le, List.append_nil]⟩
  | succ k ih =>
    have hlt : pos < jobLength job := by omega
    obtain ⟨u, hstep, hu, hout⟩ := h.emits_next hlt
    obtain ⟨t, hrun, ht, hout'⟩ := ih hu (by omega)
    have hbyte : (wave params job).drop pos = byteAt params job pos :: (wave params job).drop (pos + 1) := by
      obtain ⟨hpos, hget⟩ := List.getElem?_eq_some_iff.1 (wave_getElem? legalParams_params hj hlt)
      rw [List.drop_eq_getElem_cons hpos, hget]
    exact ⟨t, (run_succ_of_step hstep).trans hrun, ht, by rw [hout', hout, hbyte, List.append_assoc]; rfl⟩

/-- GEN of a legal job, with a DRAIN behind it, starts draining at the first byte. -/
theorem step_gen_draining {job : Job} (hp : s.pending = .op (.gen job) :: .drain :: rest) (hf : s.wsq.fault = none)
    (hi : s.wsq.phase = .idle) (hj : jobLegal job = true) :
    ∃ t, step s = .next t ∧ Draining job rest 0 t ∧ t.wsq.out = s.wsq.out := by
  have hissue : issue s.wsq.phase s.pending = .run (.gen job) (.drain :: rest) := by rw [hp, issue_op]
  refine ⟨_, (step_of_issue_run hissue).trans
    ((execGen_next (s := { s with pending := .drain :: rest })).2 ⟨hf, .inr ⟨hi, hj, rfl⟩⟩), ?_, rfl⟩
  exact ⟨rfl, hf, rfl, rfl, rfl, by simp [phaseAfterGen, eq_comm]⟩

/-- Settles O42: GEN starts the draining, and the L(job) steps of `Draining.run_to_end` end it. -/
theorem drainEmitsTheWholeJob : Obligations.DrainEmitsTheWholeJob := by
  intro s job rest hp hf hi hj
  obtain ⟨u, hgen, hu, hout⟩ := step_gen_draining hp hf hi hj
  obtain ⟨t, hrun, ht, hout'⟩ := hu.run_to_end hj (Nat.zero_add _)
  have hidle : t.wsq.phase = .idle := ht.phase.trans (if_pos rfl)
  refine ⟨t, ?_, by rw [hout', hout, List.drop_zero], hidle, ht.pending, ?_⟩
  · rw [Nat.add_comm, run_succ_of_step hgen, hrun]
  · rw [hidle, ht.pending, issue_drain_idle]

end Sys2Proof.Machine

/-! The frame decoder: header sets, its four operations, and bursts against the source's decoder
(40_frame_decoder.md R120 to R138). -/

namespace Sys2Proof.Machine

/-! ### Logical bytes and header sets -/

theorem bitrev8_getLsbD (b : Byte) {i : Nat} (hi : i < 8) : (bitrev8 b).getLsbD i = b.getLsbD (7 - i) := by
  simp only [bitrev8, BitVec.getLsbD_append, BitVec.getLsbD_extractLsb']
  interval_cases i <;> simp

/-- Settles O11: mirroring a bit index twice gives it back. -/
theorem bitReversalMirrorsTheByte : Obligations.BitReversalMirrorsTheByte := by
  intro b
  refine ⟨fun i hi => bitrev8_getLsbD b hi, BitVec.eq_of_getLsbD_eq fun i hi => ?_⟩
  rw [bitrev8_getLsbD _ hi, bitrev8_getLsbD _ (by omega), show 7 - (7 - i) = i by omega]

/-- The members of HSET are as many as the chips: the formula is injective in the chip index (R123). -/
theorem hset_card {n fw : Nat} (hn : n ≤ 32) (h1 : 1 ≤ fw) (h8 : fw ≤ 8) :
    ((List.range 256).filter (hset n fw).getLsbD).length = n := by
  have hinj : Function.Injective fun i => i * 8 + (fw - 1) := fun i j h => by simp only at h; omega
  have hperm :
      ((List.range 256).filter (hset n fw).getLsbD).Perm ((List.range n).map fun i => i * 8 + (fw - 1)) := by
    refine (List.perm_ext_iff_of_nodup (List.nodup_range.filter _) (List.nodup_range.map hinj)).2 fun k => ?_
    simp only [List.mem_filter, List.mem_range, List.mem_map, hset_getLsbD hn h1 h8]
    constructor
    · rintro ⟨-, i, hi, rfl⟩
      exact ⟨i, hi, rfl⟩
    · rintro ⟨i, hi, rfl⟩
      exact ⟨by omega, i, hi, rfl⟩
  simpa using hperm.length_eq

/-- Settles O13: the members by `hset_getLsbD`, their number by `hset_card`. -/
theorem headerSetIsTheFormulaSet : Obligations.HeaderSetIsTheFormulaSet := by
  intro n fw hn h1 h8
  exact ⟨fun v => hset_getLsbD hn h1 h8 v.toNat, hset_card hn h1 h8⟩

/-! ### What CONFIG and CONFIG_CHIPS refuse -/

section
variable {fw : BitVec 4} {n : BitVec 6}

theorem fwLegal_eq_false (h : fw.toNat < 1 ∨ 8 < fw.toNat) : fwLegal fw = false := by
  rw [← Bool.not_eq_true, fwLegal_iff]
  omega

theorem nchipsLegal_eq_false (h : 32 < n.toNat) : nchipsLegal n = false := by
  rw [← Bool.not_eq_true, nchipsLegal_iff]
  omega

theorem configRefusal_collect : configRefusal .collect fw = some .fsdConfigInFrame := rfl

theorem configRefusal_badFw (hw : fwLegal fw = false) : configRefusal .hunt fw = some .fsdBadFw := by
  simp [configRefusal, hw]

theorem configChipsRefusal_collect : configChipsRefusal .collect fw n = some .fsdConfigInFrame := rfl

theorem configChipsRefusal_badFw (hw : fwLegal fw = false) : configChipsRefusal .hunt fw n = some .fsdBadFw := by
  simp [configChipsRefusal, hw]

theorem configChipsRefusal_badNchips (hw : fwLegal fw = true) (hn : nchipsLegal n = false) :
    configChipsRefusal .hunt fw n = some .fsdBadNchips := by
  simp [configChipsRefusal, hw, hn]

end

/-! ### The operations, on an FSD without a fault -/

section
variable {s : State} {rev : Bool} {fw : BitVec 4} {hdr : BitVec 256}

theorem exec_config_refused {c : RefusalCode} (hf : s.fsd.fault = none) (hc : configRefusal s.fsd.mode fw = some c) :
    exec (.config rev fw hdr) s = .next (refuse c s) :=
  execConfig_next.2 ⟨hf, .inl ⟨c, hc, rfl⟩⟩

theorem exec_config_accepted (hf : s.fsd.fault = none) (hm : s.fsd.mode = .hunt) (h1 : 1 ≤ fw.toNat)
    (h8 : fw.toNat ≤ 8) : exec (.config rev fw hdr) s = .next (configure rev fw hdr s) :=
  execConfig_next.2 ⟨hf, .inr ⟨hm, fwLegal_iff.2 ⟨h1, h8⟩, rfl⟩⟩

theorem exec_configChips_refused {n : BitVec 6} {c : RefusalCode} (hf : s.fsd.fault = none)
    (hc : configChipsRefusal s.fsd.mode fw n = some c) : exec (.configChips rev fw n) s = .next (refuse c s) :=
  execConfigChips_next.2 ⟨hf, .inl ⟨c, hc, rfl⟩⟩

theorem exec_configChips_accepted {n : BitVec 6} (hf : s.fsd.fault = none) (hm : s.fsd.mode = .hunt)
    (h1 : 1 ≤ fw.toNat) (h8 : fw.toNat ≤ 8) (hn : n.toNat ≤ 32) :
    exec (.configChips rev fw n) s = .next (configure rev fw (hset n.toNat fw.toNat) s) :=
  execConfigChips_next.2 ⟨hf, .inr ⟨hm, fwLegal_iff.2 ⟨h1, h8⟩, nchipsLegal_iff.2 hn, rfl⟩⟩

theorem exec_push_unset (b : Byte) (hf : s.fsd.fault = none)
    (hu : s.fsd.rev = none ∨ s.fsd.fw = none ∨ s.fsd.hdr = none) :
    exec (.push b) s = .next (raiseFsd .fsdUnconfigured s) :=
  execPush_next.2 ⟨hf, .inr ⟨hu, rfl⟩⟩

theorem exec_push_taken (b : Byte) (hf : s.fsd.fault = none) (hrev : s.fsd.rev = some rev) (hfw : s.fsd.fw = some fw)
    (hhdr : s.fsd.hdr = some hdr) :
    exec (.push b) s = .next { s with fsd := takeByte fw hdr (logicalByte rev b) s.fsd, report := .done } :=
  execPush_next.2 ⟨hf, .inl ⟨rev, fw, hdr, hrev, hfw, hhdr, rfl⟩⟩

theorem exec_endBurst (hf : s.fsd.fault = none) :
    exec .endBurst s = .next { s with fsd := { s.fsd with buf := [], mode := .hunt }, report := .done } :=
  execEnd_next.2 ⟨hf, rfl⟩

end

/-- A record has fields exactly at width 5 (R129), the width read as a number. -/
theorem frameRecord_eq (fw : BitVec 4) (buf : List Byte) :
    frameRecord fw buf = ⟨buf, if fw.toNat = 5 then fdec5 buf else none⟩ := by
  simp [frameRecord, BitVec.toNat_eq]

/-- Settles O16: the two refusals of `configRefusal`, and `configure`. -/
theorem configLoadsOrRefuses : Obligations.ConfigLoadsOrRefuses := by
  intro rev fw hdr s hf
  refine ⟨fun hm => ?_, fun hm hw => ?_, fun hm h1 h8 => ?_⟩
  · exact exec_config_refused hf (hm ▸ configRefusal_collect)
  · exact exec_config_refused hf (hm ▸ configRefusal_badFw (fwLegal_eq_false hw))
  · exact ⟨_, exec_config_accepted hf hm h1 h8⟩

/-- Settles O17: the three refusals of `configChipsRefusal`, and `configure` with the set of `hset_getLsbD`. -/
theorem configChipsLoadsOrRefuses : Obligations.ConfigChipsLoadsOrRefuses := by
  intro rev fw n s hf
  refine ⟨fun hm => ?_, fun hm hw => ?_, fun hm h1 h8 hn => ?_, fun hm h1 h8 hn => ?_⟩
  · exact exec_configChips_refused hf (hm ▸ configChipsRefusal_collect)
  · exact exec_configChips_refused hf (hm ▸ configChipsRefusal_badFw (fwLegal_eq_false hw))
  · have hw := fwLegal_iff.2 ⟨h1, h8⟩
    exact exec_configChips_refused hf (hm ▸ configChipsRefusal_badNchips hw (nchipsLegal_eq_false hn))
  · exact ⟨hset n.toNat fw.toNat, _, fun v => hset_getLsbD hn h1 h8 v.toNat,
      exec_configChips_accepted hf hm h1 h8 hn⟩

/-- Settles O18: PUSH takes its logical byte (`exec_push_taken`), and the `takeByte` lemmas say what that does. -/
theorem pushTakesOneByte : Obligations.PushTakesOneByte := by
  intro b s hf
  refine ⟨fun hu => ⟨_, exec_push_unset b hf hu⟩, ?_⟩
  intro rev fw hdr hrev hfw hhdr v hv
  obtain rfl : v = logicalByte rev b := hv
  have htaken := exec_push_taken b hf hrev hfw hhdr
  refine ⟨fun hm hv => ?_, fun hm hv hw => ?_, fun hm hv hw => ?_, fun hm hl => ?_, fun hm hl => ?_⟩
  · exact ⟨_, by rw [htaken, takeByte_skip hm hv]⟩
  · obtain rfl : fw = 1#4 := BitVec.eq_of_toNat_eq hw
    exact ⟨_, by rw [htaken, takeByte_single hm hv rfl, ← hm]; rfl⟩
  · exact ⟨_, by rw [htaken, takeByte_start hm hv (mt (congrArg BitVec.toNat) hw)]⟩
  · exact ⟨_, by rw [htaken, takeByte_extend hm hl, ← hm]⟩
  · exact ⟨_, by rw [htaken, takeByte_complete hm hl, frameRecord_eq]⟩

/-- Settles O19: END never looks at the configuration (`exec_endBurst`). -/
theorem endDiscardsThePartialFrame : Obligations.EndDiscardsThePartialFrame :=
  fun _ hf => ⟨_, exec_endBurst hf⟩

/-- In COLLECT a byte is appended untested, so the header set does not enter (R136). -/
theorem takeByte_collect_hdr {f : Fsd} (hm : f.mode = .collect) (fw : BitVec 4) (hdr hdr' : BitVec 256) (v : Byte) :
    takeByte fw hdr' v { f with hdr := some hdr' } = { takeByte fw hdr v f with hdr := some hdr' } := by
  by_cases hl : f.buf.length + 1 = fw.toNat
  · rw [takeByte_complete (f := { f with hdr := some hdr' }) hm hl, takeByte_complete hm hl]
  · rw [takeByte_extend (f := { f with hdr := some hdr' }) hm hl, takeByte_extend hm hl]

/-- Settles O20: a byte taken by `takeByte_collect_hdr`; the fault of PUSH does not come from the header set. -/
theorem aHeaderValueInABodyStartsNoFrame : Obligations.AHeaderValueInABodyStartsNoFrame := by
  intro b hdr hdr' s t hm hhdr he
  obtain ⟨hf, ⟨rev, fw, hdr₀, hrev, hfw, -, rfl⟩ | ⟨hu, rfl⟩⟩ := exec_next he
  · have htaken := exec_push_taken (s := { s with fsd := { s.fsd with hdr := some hdr' } }) b hf hrev hfw rfl
    rw [htaken, takeByte_collect_hdr hm fw hdr₀]
  · refine exec_push_unset b hf ?_
    simpa [hhdr] using hu

/-! ### Bursts -/

/-- The FSD is configured and between two frames, and the last operation completed. -/
structure ReadyFor (rev : Bool) (fw : BitVec 4) (hdr : BitVec 256) (s : State) : Prop where
  fault : s.fsd.fault = none
  mode : s.fsd.mode = .hunt
  rev_eq : s.fsd.rev = some rev
  fw_eq : s.fsd.fw = some fw
  hdr_eq : s.fsd.hdr = some hdr
  report : s.report = .done

/-- The state after a burst that END has closed: FSD.FRAMES has grown by the frames of the source's decoder. -/
def afterBurst (rev : Bool) (fw : BitVec 4) (hdr : BitVec 256) (raw : List Byte) (s : State) : State :=
  { s with
    fsd :=
      { s.fsd with
        buf := []
        mode := .hunt
        frames := s.fsd.frames ++ (refDecode raw rev fw.toNat hdr).map (frameRecord fw) } }

section
variable {s : State} {rev : Bool} {fw : BitVec 4} {hdr : BitVec 256}

theorem readyFor_configure (hf : s.fsd.fault = none) (hm : s.fsd.mode = .hunt) :
    ReadyFor rev fw hdr (configure rev fw hdr s) :=
  ⟨hf, hm, rfl, rfl, rfl, rfl⟩

theorem readyFor_afterBurst (h : ReadyFor rev fw hdr s) (raw : List Byte) :
    ReadyFor rev fw hdr (afterBurst rev fw hdr raw s) :=
  ⟨h.fault, rfl, h.rev_eq, h.fw_eq, h.hdr_eq, h.report⟩

theorem execAll_cons_of_next {i : Instr} {t : State} (h : exec i s = .next t) (is : List Instr) :
    execAll (i :: is) s = execAll is t := by
  simp only [execAll, h]

/-- The PUSHes of a burst leave the state that END makes of them, but for FSD.BUF and FSD.MODE. -/
theorem ReadyFor.execAll_pushes (h : ReadyFor rev fw hdr s) (h1 : 1 ≤ fw.toNat) (raw : List Byte)
    (rest : List Instr) :
    ∃ buf mode, execAll (raw.map .push ++ rest) s =
      execAll rest { s with fsd := { (afterBurst rev fw hdr raw s).fsd with buf := buf, mode := mode } } := by
  obtain ⟨buf, mode, hfeed⟩ := feed_scan (rev := rev) (hdr := hdr) h1 raw.length raw le_rfl s.fsd h.mode
  refine ⟨buf, mode, ?_⟩
  rw [execAll_push raw rest s h.fault h.rev_eq h.fw_eq h.hdr_eq h.report, hfeed, afterBurst, refDecode]

/-- A burst and the END that closes it (R134). -/
theorem ReadyFor.execAll_burst (h : ReadyFor rev fw hdr s) (h1 : 1 ≤ fw.toNat) (raw : List Byte)
    (rest : List Instr) :
    execAll (raw.map .push ++ .endBurst :: rest) s = execAll rest (afterBurst rev fw hdr raw s) := by
  obtain ⟨buf, mode, hpushes⟩ := h.execAll_pushes h1 raw (.endBurst :: rest)
  refine hpushes.trans (execAll_cons_of_next ((exec_endBurst ?_).trans ?_) rest)
  · exact h.fault
  · rw [afterBurst, ← h.report]

end

/-- Settles O22: CONFIG makes the FSD ready, and `ReadyFor.execAll_burst` is the burst. -/
theorem theFsdEqualsTheSourcesDecoder : Obligations.TheFsdEqualsTheSourcesDecoder := by
  intro s rev fw hdr raw hf hm h1 h8
  have hready := readyFor_configure (rev := rev) (fw := fw) (hdr := hdr) hf hm
  refine ⟨afterBurst rev fw hdr raw (configure rev fw hdr s), ?_, ?_, rfl, rfl⟩
  · rw [decodeOps, execAll_cons_of_next (exec_config_accepted hf hm h1 h8), hready.execAll_burst h1, execAll]
  · simp only [afterBurst, configure_fsd_frames, funext (frameRecord_eq fw)]

/-- Settles O23: after the first burst the FSD is ready for the second (`readyFor_afterBurst`). -/
theorem noFrameContinuesAcrossABurst : Obligations.NoFrameContinuesAcrossABurst := by
  intro s rev fw hdr a b hf hm h1 h8
  have hready := readyFor_configure (rev := rev) (fw := fw) (hdr := hdr) hf hm
  refine ⟨afterBurst rev fw hdr b (afterBurst rev fw hdr a (configure rev fw hdr s)), ?_, ?_, rfl, rfl⟩
  · rw [execAll_cons_of_next (exec_config_accepted hf hm h1 h8), hready.execAll_burst h1,
      (readyFor_afterBurst hready a).execAll_burst h1, execAll]
  · simp only [afterBurst, configure_fsd_frames, funext (frameRecord_eq fw), List.map_append, List.append_assoc]

/-- The chip id and the payload of a 5-byte frame are the parts of its header (30_encoding.md R82, R83). -/
theorem fdec5_header {l : List Byte} (hl : l.length = 5) {v : Byte} (hv : l.head? = some v) {i p : Nat} (hp : p < 8)
    (h : v.toNat = i * 8 + p) : ∃ f, fdec5 l = some f ∧ f.chipId.toNat = i ∧ f.payload.toNat = p := by
  obtain ⟨b0, b1, b2, b3, b4, rfl⟩ : ∃ b0 b1 b2 b3 b4, [b0, b1, b2, b3, b4] = l := by
    simpa [List.length_eq_succ_iff] using hl
  obtain rfl : b0 = v := by simpa using hv
  obtain ⟨f, hfields, hchip, hpayload, -⟩ := hitFieldsAreTheNamedBits b0 b1 b2 b3 b4
  exact ⟨f, hfields, by omega, by omega⟩

/-- Settles O26: an emitted frame is one of the source's scan, whose header is a value of the formula
(`refScan_shape`, `hset_getLsbD`), and the header's parts are its fields (`fdec5_header`). -/
theorem chipHeadersGivePayloadFour : Obligations.ChipHeadersGivePayloadFour := by
  intro s t rev n raw hf hm hn he
  have hready := readyFor_configure (rev := rev) (fw := 5#4) (hdr := hset n.toNat 5) hf hm
  obtain ⟨buf, mode, hpushes⟩ := hready.execAll_pushes (by decide) raw []
  rw [execAll_cons_of_next (exec_configChips_accepted hf hm (by decide) (by decide) hn)] at he
  rw [List.append_nil] at hpushes
  obtain rfl := Host.Outcome.next.inj (hpushes.symm.trans he)
  refine ⟨_, rfl, fun r hr => ?_⟩
  obtain ⟨frame, hframe, rfl⟩ := List.mem_map.1 hr
  obtain ⟨hlen, v, hv, hhdr⟩ := refScan_shape (by decide) _ _ _ frame hframe
  obtain ⟨i, hi, hvalue⟩ := (hset_getLsbD hn (by decide) (by decide) v.toNat).1 hhdr
  obtain ⟨f, hfields, hchip, hpayload⟩ := fdec5_header hlen hv (by decide) hvalue
  refine ⟨f, i, hfields, hi, ?_, hchip, hpayload⟩
  rw [frameRecord_raw, hv, ← hvalue, BitVec.ofNat_toNat, BitVec.setWidth_eq]

end Sys2Proof.Machine

/-! The waveform: the length and the bytes of a job's wave, GEN, STEP and LEN, and whole jobs against the source's
generator (41_waveform.md R170 to R187). -/

namespace Sys2Proof.Machine

/-! ### The parameters, the length and the bytes of a wave -/

/-- Settles O5: `legalParams_params`. -/
theorem theParametersOfTheBlockAreLegal : Obligations.TheParametersOfTheBlockAreLegal := legalParams_params

/-- Settles O27: P_v and T_v of each variant in `jobLength`, and `jobLength_spi`. -/
theorem jobLengthIsTheFormula : Obligations.JobLengthIsTheFormula := by
  intro job
  refine ⟨fun hp hv => ?_, fun hp hv => ?_, jobLength_spi⟩
  · simp only [jobLength, hp, hv, patLen, trailerUnits]
  · simp only [jobLength, hp, hv, patLen, trailerUnits]

/-- Settles O28: `wave_length`. -/
theorem theWaveHasTheJobLength : Obligations.TheWaveHasTheJobLength := fun _ _ hp hj => wave_length hp hj

/-- Settles O29: `wave_getElem?`. -/
theorem theByteAtAnIndexIsTheWaves : Obligations.TheByteAtAnIndexIsTheWaves := fun _ _ _ hp hj => wave_getElem? hp hj

/-- Settles O33: the parts of `spiSeq`, none of which reads clkdiv or variant. -/
theorem aSpiJobIsItsSequence : Obligations.ASpiJobIsItsSequence := by
  intro p job hp
  refine ⟨by rw [wave_spi p hp]; rfl, fun c v => ⟨?_, ?_⟩⟩
  · rw [wave_spi p hp, wave_spi p (job := { job with clkdiv := c, variant := v }) hp]
    rfl
  · rw [jobLength_spi hp, jobLength_spi (job := { job with clkdiv := c, variant := v }) hp]

theorem spiTargetHdr_bcast (p : Params) {job : Job} (hb : job.bcast = true) :
    (spiTargetHdr p job).toNat = p.tagBcast.toNat * 32 + p.bcastId.toNat := by
  rw [spiTargetHdr, if_pos hb]
  exact toNat_append_eq_add _ _

theorem spiTargetHdr_routed (p : Params) {job : Job} (hb : job.bcast = false) (hc : job.chip.toNat ≤ 31) :
    (spiTargetHdr p job).toNat = p.tagRouted.toNat * 32 + job.chip.toNat := by
  have hid : (job.chip.setWidth 5).toNat = job.chip.toNat := by
    rw [BitVec.toNat_setWidth, Nat.mod_eq_of_lt (Nat.lt_succ_of_le hc)]
  rw [spiTargetHdr, if_neg (by simp [hb]), ← hid]
  exact toNat_append_eq_add _ _

/-- Settles O32: equal headers would have equal tags, since an id is less than 32. -/
theorem spiTargetHeadersDiffer : Obligations.SpiTargetHeadersDiffer := by
  intro p job job' hp hb hb' hc
  have ⟨_, _, _, _, htags, _⟩ := hp
  have hbcast := spiTargetHdr_bcast p hb
  have hrouted := spiTargetHdr_routed p hb' hc
  refine ⟨hbcast, hrouted, fun heq => htags (BitVec.eq_of_toNat_eq ?_)⟩
  have hid := p.bcastId.isLt
  rw [heq] at hbcast
  omega

/-! ### Jobs of equal shape -/

section
variable {p : Params} {job : Job} {vec : List Bool}

theorem jobLength_congr_vec (h : vec.length = job.vec.length) : jobLength { job with vec := vec } = jobLength job := by
  simp only [jobLength, h]

theorem jobLegal_congr_vec (h : vec.length = job.vec.length) : jobLegal { job with vec := vec } = jobLegal job := by
  simp only [jobLegal, clkdivLegal, chipLegal, lengthLegal, jobLength_congr_vec h]

/-- Outside SIN a data byte is 0, whatever else is driven with it. -/
theorem legacyData_or_masked (p : Params) (v : Variant) (x : Bool) (m : Byte) :
    (legacyData p v x ||| m) &&& ~~~p.sin v = m &&& ~~~p.sin v := by
  cases x
  · simp [legacyData]
  · ext i hi
    simp [legacyData, Bool.and_or_distrib_right]

/-- Outside SIN the pattern of a bit does not depend on the bit. -/
theorem pattern_congr_masked (p : Params) (v : Variant) (x y : Bool) :
    (pattern p v x).map (· &&& ~~~p.sin v) = (pattern p v y).map (· &&& ~~~p.sin v) := by
  have hline (m : Byte) : (legacyData p v x ||| m) &&& ~~~p.sin v = (legacyData p v y ||| m) &&& ~~~p.sin v := by
    rw [legacyData_or_masked, legacyData_or_masked]
  have hdata : legacyData p v x &&& ~~~p.sin v = legacyData p v y &&& ~~~p.sin v := by
    simpa using hline 0
  cases v <;> simp only [pattern, patGecco, patAsic, List.map_cons, hline, hdata]

theorem pattern_getD_congr_masked (p : Params) (v : Variant) (x y : Bool) (j : Nat) :
    (pattern p v x).getD j 0 &&& ~~~p.sin v = (pattern p v y).getD j 0 &&& ~~~p.sin v := by
  have hmap (z : Bool) :
      ((pattern p v z).map (· &&& ~~~p.sin v)).getD j (0 &&& ~~~p.sin v) = (pattern p v z).getD j 0 &&& ~~~p.sin v :=
    List.getD_map ..
  rw [← hmap, ← hmap, pattern_congr_masked p v x y]

theorem legacyByteAt_congr_masked (p : Params) (hp : job.proto = .legacy) (h : vec.length = job.vec.length) (t : Nat) :
    legacyByteAt p { job with vec := vec } t &&& ~~~dataMask p job t =
      legacyByteAt p job t &&& ~~~dataMask p job t := by
  simp only [legacyByteAt, dataMask, hp, h]
  split
  · exact pattern_getD_congr_masked ..
  · rfl

theorem spiByteAt_congr_masked (p : Params) (hp : job.proto = .spi) (h : vec.length = job.vec.length) (t : Nat) :
    spiByteAt p { job with vec := vec } t &&& ~~~dataMask p job t = spiByteAt p job t &&& ~~~dataMask p job t := by
  by_cases hbit : 1 ≤ t ∧ t ≤ job.vec.length
  · have hmask : dataMask p job t = BitVec.allOnes 8 := by
      simp only [dataMask, hp, if_pos hbit]
      rfl
    simp [hmask]
  · have hbyte : spiByteAt p { job with vec := vec } t = spiByteAt p job t := by
      by_cases h0 : t = 0
      · rw [spiByteAt, spiByteAt, if_pos h0, if_pos h0]
        rfl
      · have hpast : ¬ t ≤ job.vec.length := fun hle => hbit ⟨Nat.one_le_iff_ne_zero.2 h0, hle⟩
        simp only [spiByteAt, h, if_neg h0, if_neg hpast]
    rw [hbyte]

end

/-- Settles O34: lengths by `wave_length`, bytes protocol by protocol. -/
theorem jobsOfEqualShapeDifferOnlyInData : Obligations.JobsOfEqualShapeDifferOnlyInData := by
  intro p job vec hp hj hvec
  have hlen := jobLength_congr_vec hvec
  refine ⟨hlen, ?_, fun t _ => ?_⟩
  · rw [wave_length hp ((jobLegal_congr_vec hvec).trans hj), wave_length hp hj, hlen]
  · cases hproto : job.proto
    · simpa only [byteAt, hproto] using legacyByteAt_congr_masked p hproto hvec t
    · simpa only [byteAt, hproto] using spiByteAt_congr_masked p hproto hvec t

/-! ### GEN -/

theorem jobLegal_iff {job : Job} :
    jobLegal job = true ↔
      (job.proto = .legacy → 1 ≤ job.clkdiv ∧ jobLength job ≤ 0xFFFF) ∧
        (job.proto = .spi → job.bcast = false → job.chip.toNat ≤ 31) := by
  rw [jobLegal, Bool.and_eq_true, Bool.and_eq_true, clkdivLegal_iff, chipLegal_iff, lengthLegal_iff]
  constructor
  · rintro ⟨⟨hclkdiv, hchip⟩, hlength⟩
    exact ⟨fun hp => ⟨hclkdiv hp, hlength hp⟩, hchip⟩
  · rintro ⟨hlegacy, hchip⟩
    exact ⟨⟨fun hp => (hlegacy hp).1, hchip⟩, fun hp => (hlegacy hp).2⟩

section
variable {job : Job}

theorem genRefusal_busy : genRefusal .run job = some .wsqBusy := rfl

theorem genRefusal_badClkdiv (hp : job.proto = .legacy) (h0 : job.clkdiv = 0) :
    genRefusal .idle job = some .wsqBadClkdiv := by
  simp [genRefusal, clkdivLegal, hp, h0]

theorem genRefusal_badChipid (hp : job.proto = .spi) (hb : job.bcast = false) (hc : 31 < job.chip.toNat) :
    genRefusal .idle job = some .wsqBadChipid := by
  simp [genRefusal, clkdivLegal, chipLegal, hp, hb, hc]

theorem genRefusal_lenOverflow (hp : job.proto = .legacy) (h0 : job.clkdiv ≠ 0) (hl : 0xFFFF < jobLength job) :
    genRefusal .idle job = some .wsqLenOverflow := by
  simp [genRefusal, clkdivLegal, chipLegal, lengthLegal, hp, h0, hl]

/-- The WSQ after a LEGACY job: the length header is the length's two bytes (R172, 30_encoding.md R91). -/
theorem acceptJob_legacy (hp : job.proto = .legacy) (hl : jobLength job ≤ 0xFFFF) (w : Wsq) :
    acceptJob job w =
      { w with
        job := some job
        jobLen := some (jobLength job)
        pos := 0
        lenHi := some (BitVec.ofNat 8 (jobLength job / 256))
        lenLo := some (BitVec.ofNat 8 (jobLength job % 256))
        phase := if jobLength job = 0 then .idle else .run } := by
  obtain ⟨hhi, hlo⟩ := theLengthHeaderIsBigEndian (jobLength job) hl
  simp only [acceptJob, hp, ← hhi, ← hlo, BitVec.ofNat_toNat, BitVec.setWidth_eq]
  rfl

/-- The WSQ after a SPI job: no length header, and at least the target header to emit (R172). -/
theorem acceptJob_spi (hp : job.proto = .spi) (w : Wsq) :
    acceptJob job w =
      { w with
        job := some job, jobLen := some (jobLength job), pos := 0, lenHi := none, lenLo := none, phase := .run } := by
  have hpos : jobLength job ≠ 0 := by
    rw [jobLength_spi hp]
    omega
  simp only [acceptJob, hp, phaseAfterGen, if_neg hpos]

variable {s : State}

theorem exec_gen_refused {c : RefusalCode} (hf : s.wsq.fault = none) (hc : genRefusal s.wsq.phase job = some c) :
    exec (.gen job) s = .next (refuse c s) :=
  execGen_next.2 ⟨hf, .inl ⟨c, hc, rfl⟩⟩

theorem exec_gen_accepted (hf : s.wsq.fault = none) (hi : s.wsq.phase = .idle) (hj : jobLegal job = true) :
    exec (.gen job) s = .next { s with wsq := acceptJob job s.wsq, report := .done } :=
  execGen_next.2 ⟨hf, .inr ⟨hi, hj, rfl⟩⟩

end

/-- Settles O36: the four refusals of `genRefusal` in their order, and `acceptJob` for each protocol. -/
theorem genAcceptsOrRefuses : Obligations.GenAcceptsOrRefuses := by
  intro job s hf
  refine ⟨fun hr => ?_, fun hi hp h0 => ?_, fun hi hp hb hc => ?_, fun hi hp h0 hl => ?_, fun hi hp h0 hl => ?_,
    fun hi hp htarget => ?_⟩
  · exact exec_gen_refused hf (hr ▸ genRefusal_busy)
  · exact exec_gen_refused hf (hi ▸ genRefusal_badClkdiv hp h0)
  · exact exec_gen_refused hf (hi ▸ genRefusal_badChipid hp hb hc)
  · exact exec_gen_refused hf (hi ▸ genRefusal_lenOverflow hp h0 hl)
  · have hj : jobLegal job = true := jobLegal_iff.2 ⟨fun _ => ⟨Nat.one_le_iff_ne_zero.2 h0, hl⟩, by simp [hp]⟩
    exact ⟨_, by rw [exec_gen_accepted hf hi hj, acceptJob_legacy hp hl]⟩
  · have hj : jobLegal job = true :=
      jobLegal_iff.2 ⟨by simp [hp], fun _ hb => htarget.resolve_left (by simp [hb])⟩
    exact ⟨_, by rw [exec_gen_accepted hf hi hj, acceptJob_spi hp]⟩

/-- Settles O37: `jobLegal_iff`, and GEN refuses nothing only for a legal job (`genRefusal_none`). -/
theorem legalJobsAreTheRulesJobs : Obligations.LegalJobsAreTheRulesJobs := by
  refine fun job => ⟨jobLegal_iff, fun hj s hf => ?_⟩
  have hrefused : genRefusal s.wsq.phase job ≠ none := by simp [genRefusal_none, hj]
  obtain ⟨c, hc⟩ := Option.ne_none_iff_exists'.1 hrefused
  exact ⟨c, exec_gen_refused hf hc⟩

/-! ### STEP and LEN -/

section
variable {s t : State} {i : Instr} {job : Job}

/-- STEP emits the byte of the wave at WSQ.POS (R184). -/
theorem exec_step_emits {len : Nat} {b : Byte} (hf : s.wsq.fault = none) (hr : s.wsq.phase = .run)
    (hjob : s.wsq.job = some job) (hlen : s.wsq.jobLen = some len) (hj : jobLegal job = true)
    (hb : (wave params job)[s.wsq.pos]? = some b) :
    exec .step s = .next { s with wsq := emitByte b len s.wsq, report := .done } := by
  have hlt : s.wsq.pos < jobLength job := by
    rw [← wave_length legalParams_params hj]
    exact (List.getElem?_eq_some_iff.1 hb).1
  obtain rfl : byteAt params job s.wsq.pos = b :=
    Option.some.inj ((wave_getElem? legalParams_params hj hlt).symm.trans hb)
  exact execStep_next.2 ⟨hf, job, len, hr, hjob, hlen, hlt, rfl⟩

theorem exec_step_idle (hf : s.wsq.fault = none) (hi : s.wsq.phase = .idle) : exec .step s = .fault .noStepIdle := by
  simp [exec, execStep, stepWith, wsqOperation_of_none hf, hi]

/-- While a job runs, only STEP and RESET write a register of the WSQ other than its fault register. -/
theorem exec_wsq_run_frame (he : exec i s = .next t) (hreset : i ≠ .reset) (hstep : i ≠ .step)
    (hr : s.wsq.phase = .run) : t.wsq = { s.wsq with fault := t.wsq.fault } := by
  cases exec_answer he with
  | jobAccepted hf hi => simp [hr] at hi
  | byteEmitted => exact absurd rfl hstep
  | runStarted => exact absurd rfl hreset
  | _ => rfl

end

/-- Settles O38: `exec_step_emits` and `exec_step_idle`. -/
theorem stepEmitsTheNextByte : Obligations.StepEmitsTheNextByte :=
  ⟨fun _ _ _ _ hf hr hjob hlen hj hb => ⟨_, exec_step_emits hf hr hjob hlen hj hb⟩, fun _ => exec_step_idle⟩

/-- Settles O39: the two effects of LEN. -/
theorem lenReadsTheLengthHeader : Obligations.LenReadsTheLengthHeader :=
  ⟨fun hi lo _ hf hhi hlo => ⟨_, execLen_next.2 ⟨hf, .inl ⟨hi, lo, hhi, hlo, rfl⟩⟩⟩,
    fun _ hf hu => ⟨_, execLen_next.2 ⟨hf, .inr ⟨.inl hu, rfl⟩⟩⟩⟩

/-- Settles O54: STEP moves WSQ.POS by one, and nothing else does (`exec_wsq_run_frame`). -/
theorem aRunningJobIsNeverCutShort : Obligations.ARunningJobIsNeverCutShort := by
  intro i s t he hreset hr
  by_cases hstep : i = .step
  · subst hstep
    obtain ⟨-, job, len, -, -, hlen, -, rfl⟩ := exec_next he
    refine ⟨rfl, rfl, rfl, rfl, .inr ⟨rfl, rfl, ?_⟩⟩
    simp [phaseAfterStep, hlen, eq_comm]
  · rw [exec_wsq_run_frame he hreset hstep hr]
    exact ⟨rfl, rfl, rfl, rfl, .inl ⟨hstep, rfl, hr⟩⟩

/-! ### A whole job (R185) -/

/-- GEN leaves the phase a STEP to position 0 would leave. -/
theorem phaseAfterGen_eq_phaseAfterStep (len : Nat) : phaseAfterGen len = phaseAfterStep 0 len :=
  if_congr eq_comm rfl rfl

/-- The STEPs a job still has to come emit the rest of its wave. -/
theorem execAll_remaining_steps {job : Job} (hj : jobLegal job = true) {k : Nat} {s : State}
    (hf : s.wsq.fault = none) (hjob : s.wsq.job = some job) (hlen : s.wsq.jobLen = some (jobLength job))
    (hk : s.wsq.pos + k = jobLength job) (hphase : s.wsq.phase = phaseAfterStep s.wsq.pos (jobLength job)) :
    ∃ r, execAll (List.replicate k .step) s =
      .next { s with
        wsq :=
          { s.wsq with
            out := s.wsq.out ++ (wave params job).drop s.wsq.pos, pos := jobLength job, phase := .idle }
        report := r } := by
  have hwave : (wave params job).length = jobLength job := wave_length legalParams_params hj
  induction k generalizing s with
  | zero =>
    have hpos : s.wsq.pos = jobLength job := hk
    have hidle : s.wsq.phase = .idle := hphase.trans (if_pos hpos)
    refine ⟨s.report, ?_⟩
    rw [List.drop_eq_nil_of_le (by omega), List.append_nil, ← hpos, ← hidle]
    rfl
  | succ k ih =>
    have hrun : s.wsq.phase = .run := hphase.trans (if_neg (by omega))
    have hlt : s.wsq.pos < (wave params job).length := by omega
    have hstep := exec_step_emits hf hrun hjob hlen hj (List.getElem?_eq_getElem hlt)
    obtain ⟨r, hrest⟩ := ih (s := { s with wsq := emitByte _ (jobLength job) s.wsq, report := .done }) hf hjob hlen
      (by simp only [emitByte_pos]; omega) rfl
    refine ⟨r, ?_⟩
    rw [List.replicate_succ, execAll_cons_of_next hstep, hrest, List.drop_eq_getElem_cons hlt]
    simp [emitByte]

/-- Settles O41: after GEN the whole wave remains (`execAll_remaining_steps`). -/
theorem theWsqEqualsTheSourcesGenerator : Obligations.TheWsqEqualsTheSourcesGenerator := by
  intro s job hf hi hj
  obtain ⟨r, hsteps⟩ := execAll_remaining_steps (s := { s with wsq := acceptJob job s.wsq, report := .done }) hj
    (k := jobLength job) hf rfl rfl (Nat.zero_add _) (phaseAfterGen_eq_phaseAfterStep _)
  refine ⟨_, (execAll_cons_of_next (exec_gen_accepted hf hi hj) _).trans hsteps, ?_, rfl, rfl, rfl, rfl⟩
  simp only [acceptJob_out, acceptJob_pos, List.drop_zero]

end Sys2Proof.Machine

/-! Where an instruction stops, and what it reports where it goes on: no step, faults, refusals and completions
(60_exceptions.md R220 to R230). -/

namespace Sys2Proof.Machine

section
variable {i : Instr} {s t : State} {k : State → Result}

/-- RESET alone belongs to both engines (30_encoding.md R80). -/
theorem engineOf_both (hi : engineOf i.row = .both) : i = .reset := by
  cases i with
  | reset => rfl
  | _ => cases hi

/-! ### Operations of the FSD -/

theorem fsdOperation_of_faulted (hf : s.fsd.fault ≠ none) : fsdOperation k s = .fault .noStepFsdFaulted :=
  fsdOperation_fault.2 (.inr ⟨hf, rfl⟩)

/-- Every operation of the FSD checks FSD.FAULT first (R223). -/
theorem exec_fsd_faulted (hi : engineOf i.row = .fsd) (hf : s.fsd.fault ≠ none) :
    exec i s = .fault .noStepFsdFaulted := by
  cases i with
  | config | configChips | push | endBurst =>
    simp only [exec, execConfig, execConfigChips, execPush, execEnd, fsdOperation_of_faulted hf]
  | _ => cases hi

/-- A refusal is a next state, so an operation that can refuse goes on wherever its completion does. -/
theorem unlessRefused_goes_on (r : Option RefusalCode) {u : State → State} :
    ∃ t, unlessRefused r (fun s => .next (u s)) s = .next t := by
  cases r with
  | none => exact ⟨_, rfl⟩
  | some c => exact ⟨_, rfl⟩

theorem exec_push_goes_on (b : Byte) (hf : s.fsd.fault = none) : ∃ t, exec (.push b) s = .next t := by
  by_cases hu : s.fsd.rev = none ∨ s.fsd.fw = none ∨ s.fsd.hdr = none
  · exact ⟨_, exec_push_unset b hf hu⟩
  · simp only [not_or, Option.ne_none_iff_exists'] at hu
    obtain ⟨⟨rev, hrev⟩, ⟨fw, hfw⟩, ⟨hdr, hhdr⟩⟩ := hu
    exact ⟨_, exec_push_taken b hf hrev hfw hhdr⟩

/-- Without a fault every operation of the FSD has a step. -/
theorem exec_fsd_goes_on (hi : engineOf i.row = .fsd) (hf : s.fsd.fault = none) : ∃ t, exec i s = .next t := by
  cases i with
  | config rev fw hdr =>
    obtain ⟨t, h⟩ := unlessRefused_goes_on (configRefusal s.fsd.mode fw)
    exact ⟨t, fsdOperation_next.2 ⟨hf, h⟩⟩
  | configChips rev fw n =>
    obtain ⟨t, h⟩ := unlessRefused_goes_on (configChipsRefusal s.fsd.mode fw n)
    exact ⟨t, fsdOperation_next.2 ⟨hf, h⟩⟩
  | push b => exact exec_push_goes_on b hf
  | endBurst => exact ⟨_, exec_endBurst hf⟩
  | _ => cases hi

/-! ### Operations of the WSQ -/

theorem wsqOperation_of_faulted (hf : s.wsq.fault ≠ none) : wsqOperation k s = .fault .noStepWsqFaulted :=
  wsqOperation_fault.2 (.inr ⟨hf, rfl⟩)

/-- Every operation of the WSQ checks WSQ.FAULT first (R223). -/
theorem exec_wsq_faulted (hi : engineOf i.row = .wsq) (hf : s.wsq.fault ≠ none) :
    exec i s = .fault .noStepWsqFaulted := by
  cases i with
  | gen | step | len => simp only [exec, execGen, execStep, stepWith, execLen, wsqOperation_of_faulted hf]
  | _ => cases hi

/-- Under the invariants a running job always has a next byte (R43), so STEP never lacks one (log 9). -/
theorem exec_step_goes_on (hinv : WsqInv s.wsq) (hf : s.wsq.fault = none) (hp : s.wsq.phase = .run) :
    ∃ t, exec .step s = .next t := by
  obtain ⟨hlen, -, hrun, -⟩ := hinv
  obtain ⟨n, hn, hlt⟩ := hrun hp
  obtain ⟨job, hjob, rfl⟩ := Option.map_eq_some_iff.1 (hlen.symm.trans hn)
  exact ⟨_, execStep_next.2 ⟨hf, job, _, hp, hjob, hn, hlt, rfl⟩⟩

theorem exec_len_goes_on (hf : s.wsq.fault = none) : ∃ t, exec .len s = .next t := by
  by_cases hu : s.wsq.lenHi = none ∨ s.wsq.lenLo = none
  · exact ⟨_, execLen_next.2 ⟨hf, .inr ⟨hu, rfl⟩⟩⟩
  · simp only [not_or, Option.ne_none_iff_exists'] at hu
    obtain ⟨⟨hi, hhi⟩, ⟨lo, hlo⟩⟩ := hu
    exact ⟨_, execLen_next.2 ⟨hf, .inl ⟨hi, lo, hhi, hlo, rfl⟩⟩⟩

/-- Without a fault every operation of the WSQ but a STEP in IDLE has a step. -/
theorem exec_wsq_goes_on (hinv : WsqInv s.wsq) (hi : engineOf i.row = .wsq) (hf : s.wsq.fault = none)
    (hstep : ¬(i = .step ∧ s.wsq.phase = .idle)) : ∃ t, exec i s = .next t := by
  cases i with
  | gen job =>
    obtain ⟨t, h⟩ := unlessRefused_goes_on (genRefusal s.wsq.phase job)
    exact ⟨t, wsqOperation_next.2 ⟨hf, h⟩⟩
  | step =>
    cases hp : s.wsq.phase with
    | idle => exact absurd ⟨rfl, hp⟩ hstep
    | run => exact exec_step_goes_on hinv hf hp
  | len => exact exec_len_goes_on hf
  | _ => cases hi

/-! ### Format rows -/

theorem ifFormat_ends (ok : Bool) (r : Report) :
    (∃ t, ifFormat ok (fun s => .next { s with report := r }) s = .next t) ∨
      (ifFormat ok (fun s => .next { s with report := r }) s = .refused .noSuchFormat ∧ ok = false) := by
  cases ok with
  | false => exact .inr ⟨rfl, rfl⟩
  | true => exact .inl ⟨_, rfl⟩

/-- A format row goes on, or is ill-formed and has no meaning (log 6). -/
theorem exec_format_ends (hi : engineOf i.row = .format) :
    (∃ t, exec i s = .next t) ∨ (exec i s = .refused .noSuchFormat ∧ i.wellFormed = false) := by
  cases i with
  | fmtHitN raw => exact ifFormat_ends (hitNWidthOk raw) (.record _)
  | legPatGecco x c | legPatAsic x c | legTrailer v c => exact ifFormat_ends (dividerOk c) (.bytes _)
  | fmtHdr | fmtHit5 | legData | spiHdr | spiBit | spiLoad | spiEmpty | lenHdr => exact .inl ⟨_, rfl⟩
  | _ => cases hi

/-- A format row that goes on leaves its bytes or its record in `report` (log 6). -/
theorem formatReport_of_exec (hi : engineOf i.row = .format) (he : exec i s = .next t) : FormatReport t.report := by
  have e := exec_next he
  cases i with
  | fmtHdr | fmtHit5 | fmtHitN | legData | legPatGecco | legPatAsic | legTrailer | spiHdr | spiBit | spiLoad
  | spiEmpty | lenHdr =>
    obtain ⟨r, hr, rfl⟩ := e
    exact hr
  | _ => cases hi

theorem formatReport_iff {r : Report} : FormatReport r ↔ (∃ bs, r = .bytes bs) ∨ ∃ x, r = .record x := by
  cases r <;> simp [FormatReport]

/-! ### What a next state reports -/

/-- Only CONFIG, CONFIG_CHIPS and GEN refuse, and what they leave is `refuse` (R224). -/
theorem exec_refusal {c : RefusalCode} (he : exec i s = .next t) (hr : t.report = .refusal c) :
    t = refuse c s ∧ (i.row = .config ∨ i.row = .configChips ∨ i.row = .gen) := by
  cases exec_answer he with
  | refusal c' hi =>
    cases hr
    exact ⟨rfl, hi⟩
  | formatShown r hi =>
    cases hr
    exact False.elim (formatReport_of_exec hi he)
  | _ => cases hr

/-- The codes each operation refuses with (R222). -/
theorem exec_refusal_code {c : RefusalCode} (he : exec i s = .next t) (hr : t.report = .refusal c) :
    (i.row = .config ∧ (c = .fsdConfigInFrame ∨ c = .fsdBadFw)) ∨
    (i.row = .configChips ∧ (c = .fsdConfigInFrame ∨ c = .fsdBadFw ∨ c = .fsdBadNchips)) ∨
    (i.row = .gen ∧ (c = .wsqBusy ∨ c = .wsqBadClkdiv ∨ c = .wsqBadChipid ∨ c = .wsqLenOverflow)) := by
  cases i with
  | config =>
    obtain ⟨-, ⟨c', hc, rfl⟩ | ⟨-, -, rfl⟩⟩ := exec_next he
    · cases hr
      exact .inl ⟨rfl, configRefusal_code hc⟩
    · cases hr
  | configChips =>
    obtain ⟨-, ⟨c', hc, rfl⟩ | ⟨-, -, -, rfl⟩⟩ := exec_next he
    · cases hr
      exact .inr (.inl ⟨rfl, configChipsRefusal_code hc⟩)
    · cases hr
  | gen =>
    obtain ⟨-, ⟨c', hc, rfl⟩ | ⟨-, -, rfl⟩⟩ := exec_next he
    · cases hr
      exact .inr (.inr ⟨rfl, genRefusal_code hc⟩)
    · cases hr
  | _ =>
    obtain ⟨-, hi | hi | hi⟩ := exec_refusal he hr
    all_goals cases hi

end

/-! ### The obligations -/

/-- Settles O43: what goes on does not stop, engine by engine (`exec_fsd_goes_on`, `exec_wsq_goes_on`,
`exec_format_ends`). -/
theorem anOperationStopsOnlyWhereThereIsNoStep : Obligations.AnOperationStopsOnlyWhereThereIsNoStep := by
  intro i s ⟨_, hinv⟩
  cases hi : engineOf i.row with
  | fsd =>
    by_cases hf : s.fsd.fault = none
    · obtain ⟨t, h⟩ := exec_fsd_goes_on hi hf
      simp [h]
    · simp [exec_fsd_faulted hi hf, hf]
  | wsq =>
    by_cases hf : s.wsq.fault = none
    · by_cases hidle : i = .step ∧ s.wsq.phase = .idle
      · obtain ⟨rfl, hp⟩ := hidle
        simp [exec_step_idle hf hp, hp]
      · obtain ⟨t, h⟩ := exec_wsq_goes_on hinv hi hf hidle
        simp [h]
    · simp [exec_wsq_faulted hi hf, hf]
  | both =>
    obtain rfl := engineOf_both hi
    exact ⟨nofun, nofun⟩
  | format =>
    rcases exec_format_ends (s := s) hi with ⟨t, h⟩ | ⟨h, hw⟩
    · simp [h]
    · simp [h, hw]

/-- Settles O44: an operation of a faulted engine has no step (`exec_fsd_faulted`, `exec_wsq_faulted`), and any other
writes that engine only if it is RESET. -/
theorem aFaultedEngineHasNoStep : Obligations.AFaultedEngineHasNoStep := by
  intro i s
  refine ⟨fun hf hi => exec_fsd_faulted hi hf, fun hf hi => exec_wsq_faulted hi hf, fun t he hreset => ?_⟩
  have hboth : engineOf i.row ≠ .both := fun hi => hreset (engineOf_both hi)
  constructor
  · intro hf
    refine exec_fsd_frame he (fun hi => ?_) hboth
    cases he.symm.trans (exec_fsd_faulted hi hf)
  · intro hf
    refine exec_wsq_frame he (fun hi => ?_) hboth
    cases he.symm.trans (exec_wsq_faulted hi hf)

/-- Settles O47: `exec_refusal` for the state, `exec_refusal_code` for the codes. -/
theorem aRefusalChangesNoRegister : Obligations.ARefusalChangesNoRegister := by
  intro i s t c he hr
  obtain ⟨ht, -⟩ := exec_refusal he hr
  refine ⟨ht, ?_⟩
  rcases exec_refusal_code he hr with ⟨hi, hc⟩ | ⟨hi, hc⟩ | ⟨hi, hc⟩
  · rcases hc with rfl | rfl <;> simp [hi]
  · rcases hc with rfl | rfl | rfl <;> simp [hi]
  · rcases hc with rfl | rfl | rfl | rfl <;> simp [hi]

/-- Settles O48: of the answers only `pushFault` and `lenFault` report a fault. -/
theorem aFaultWritesOnlyTheFaultRegister : Obligations.AFaultWritesOnlyTheFaultRegister := by
  intro i s t c he hr
  cases exec_answer he with
  | pushFault =>
    cases hr
    exact .inl ⟨rfl, rfl, rfl⟩
  | lenFault =>
    cases hr
    exact .inr ⟨rfl, rfl, rfl⟩
  | formatShown r hi =>
    cases hr
    exact False.elim (formatReport_of_exec hi he)
  | _ => cases hr

/-- Settles O49: `formatReport_of_exec` for a format row, the two effects of LEN, and the answers of the rest. -/
theorem theReportSaysHowTheOperationEnded : Obligations.TheReportSaysHowTheOperationEnded := by
  intro i s t he
  refine ⟨fun hi => formatReport_iff.1 (formatReport_of_exec hi he), ?_, fun hformat hlen => ?_⟩
  · rintro rfl
    obtain ⟨-, ⟨hi, lo, hhi, hlo, rfl⟩ | ⟨-, rfl⟩⟩ := exec_next he
    · exact .inl ⟨hi, lo, rfl, hhi, hlo⟩
    · exact .inr rfl
  · cases exec_answer he with
    | refusal c => exact .inr (.inl ⟨c, rfl⟩)
    | pushFault => exact .inr (.inr rfl)
    | lenRead | lenFault => exact absurd rfl hlen
    | formatShown r hi => exact absurd hi hformat
    | _ => exact .inl rfl

end Sys2Proof.Machine

/-! RESET, the end of a run, and what follows from the rules of both engines (70_reset_and_hazards.md R250, R254,
R261, R266). -/

namespace Sys2Proof.Machine

/-! ### RESET and the end of a run -/

/-- Settles O2: `execReset` asks for no register, and R44's table is `State.reset`. -/
theorem resetStartsANewRunFromEveryState : Obligations.ResetStartsANewRunFromEveryState := fun _ => rfl

/-- A fault or a refusal has happened in the current run. -/
def Marred (s : State) : Prop := s.fsd.fault ≠ none ∨ s.wsq.fault ≠ none ∨ s.refused = true

section
variable {s t : State}

/-- Neither a fault nor the mark REFUSED goes away inside a run (R223, R40). -/
theorem exec_keeps_marred {i : Instr} (hi : i ≠ .reset) (he : exec i s = .next t) (h : Marred s) : Marred t := by
  obtain ⟨-, -, hframe⟩ := aFaultedEngineHasNoStep i s
  obtain ⟨hfsd, hwsq⟩ := hframe t he hi
  rcases h with h | h | h
  · exact .inl (hfsd h ▸ h)
  · exact .inr (.inl (hwsq h ▸ h))
  · exact .inr (.inr (exec_keeps_refused hi he h))

theorem execAll_cons_next {i : Instr} {is : List Instr} (he : execAll (i :: is) s = .next t) :
    ∃ u, exec i s = .next u ∧ execAll is u = .next t := by
  cases hu : exec i s with
  | next u => exact ⟨u, rfl, (execAll_cons_of_next hu is).symm.trans he⟩
  | fault | refused => simp [execAll, hu] at he

theorem execAll_keeps_marred {is : List Instr} (his : ∀ i ∈ is, i ≠ .reset) (he : execAll is s = .next t)
    (h : Marred s) : Marred t := by
  induction is generalizing s with
  | nil => exact Host.Outcome.next.inj he ▸ h
  | cons i is ih =>
    obtain ⟨hi, his⟩ := List.forall_mem_cons.1 his
    obtain ⟨u, hu, he⟩ := execAll_cons_next he
    exact ih his he (exec_keeps_marred hi hu h)

theorem endsWell_of_marred (h : Marred s) : endsWell (observe s) = false := by
  rcases h with h | h | h <;> simp [endsWell, observe, h]

end

/-- Settles O51: a fault or a refusal lasts to the end of the run (`execAll_keeps_marred`). -/
theorem aFaultedOrRefusedRunNeverEndsWell : Obligations.AFaultedOrRefusedRunNeverEndsWell :=
  fun _ _ _ his h he => endsWell_of_marred (execAll_keeps_marred his he h)

/-! ### LEN against the wave (R261) -/

/-- Under the invariants the length registers of a LEGACY job are the two bytes of its length (R37). -/
theorem wsqInv_lengthHeader {w : Wsq} {job : Job} (h : WsqInv w) (hjob : w.job = some job)
    (hp : job.proto = .legacy) :
    w.lenHi = some (lengthHeader (jobLength job)).1 ∧ w.lenLo = some (lengthHeader (jobLength job)).2 := by
  obtain ⟨-, -, -, -, hheader, -⟩ := h
  simpa [headerOf, hjob, hp] using hheader

/-- The two bytes of a length header give the length back (R91). -/
theorem lengthHeader_value {len : Nat} (h : len ≤ 0xFFFF) :
    (lengthHeader len).1.toNat * 256 + (lengthHeader len).2.toNat = len := by
  obtain ⟨hhi, hlo⟩ := theLengthHeaderIsBigEndian len h
  rw [hhi, hlo, Nat.div_add_mod']

/-- Settles O40: LEN reads the header of the job's length (`wsqInv_lengthHeader`), and the wave is that long
(`wave_length`). -/
theorem theLengthHeaderAgreesWithTheBytes : Obligations.TheLengthHeaderAgreesWithTheBytes := by
  intro s job ⟨_, hinv⟩ hf hjob hp
  have ⟨_, hlegal, _⟩ := hinv
  have hj : jobLegal job = true := hlegal job hjob
  obtain ⟨hhi, hlo⟩ := wsqInv_lengthHeader hinv hjob hp
  refine ⟨_, _, execLen_next.2 ⟨hf, .inl ⟨_, _, hhi, hlo, rfl⟩⟩, ?_⟩
  rw [lengthHeader_value (jobLegal_length hj hp), wave_length legalParams_params hj]

/-! ### Two frames around junk (R266) -/

section
variable {rev : Bool} {fw : Nat} {hdr : BitVec 256}

theorem refScan_nil (fuel : Nat) : refScan fw hdr fuel [] = [] := by
  cases fuel <;> rfl

/-- A header value and its body are one frame of the source's scan, which goes on behind it (R134). -/
theorem refScan_frame {v : Byte} (hv : isHdr hdr v = true) {body : List Byte} (hb : body.length + 1 = fw) (fuel : Nat)
    (rest : List Byte) :
    refScan fw hdr (fuel + 1) ((v :: body) ++ rest) = (v :: body) :: refScan fw hdr fuel rest := by
  subst hb
  simp [refScan, hv]

/-- The source's decoder finds two whole frames and nothing in the junk between them. -/
theorem refDecode_two_frames {h g : Byte} (hh : isHdr hdr (logicalByte rev h) = true)
    (hg : isHdr hdr (logicalByte rev g) = true) {fs gs junk : List Byte} (hfs : fs.length + 1 = fw)
    (hgs : gs.length + 1 = fw) (hj : ∀ x ∈ junk, isHdr hdr (logicalByte rev x) = false) :
    refDecode ((h :: fs) ++ junk ++ (g :: gs)) rev fw hdr =
      [(h :: fs).map (logicalByte rev), (g :: gs).map (logicalByte rev)] := by
  have hfuel : ((h :: fs) ++ junk ++ (g :: gs)).length =
      (junk.map (logicalByte rev)).length + (fs.length + gs.length + 1) + 1 := by
    simp only [List.length_append, List.length_cons, List.length_map]
    omega
  have hsecond := refScan_frame (fw := fw) hg (body := gs.map (logicalByte rev)) (by simpa using hgs)
    (fs.length + gs.length) []
  rw [List.append_nil, refScan_nil] at hsecond
  rw [refDecode, hfuel, List.map_append, List.map_append, List.append_assoc, List.map_cons, List.map_cons,
    refScan_frame hh (by simpa using hfs), refScan_junk _ _ (List.forall_mem_map.2 hj), hsecond]

end

/-- Settles O25: the FSD emits the frames of the source's decoder (O22), which are the two (`refDecode_two_frames`). -/
theorem twoFramesAroundHeaderFreeJunk : Obligations.TwoFramesAroundHeaderFreeJunk := by
  intro s rev hdr h g f1 f2 f3 f4 g1 g2 g3 g4 junk hf hm hh hg hj
  obtain ⟨t, he, hframes, -⟩ := theFsdEqualsTheSourcesDecoder s rev 5#4 hdr
    ([h, f1, f2, f3, f4] ++ junk ++ [g, g1, g2, g3, g4]) hf hm (by decide) (by decide)
  have htwo := refDecode_two_frames (fw := (5#4).toNat) (fs := [f1, f2, f3, f4]) (gs := [g1, g2, g3, g4])
    hh hg rfl rfl hj
  refine ⟨t, he, hframes.trans ?_⟩
  rw [htwo]
  rfl

end Sys2Proof.Machine
